-- ==== Sys2Proof/Word.lean ====
section
/-! DEFINITION. The value types of rule R7 (spec/00_scope.md): a byte, a word, a bus word, and the 9-bit length of
rules R40 and R41 (spec/10_state.md). -/

namespace Sys2Proof

/-- "A byte is an unsigned 8-bit value 0..255" (R7). -/
abbrev Byte := BitVec 8

/-- "A word is an unsigned 16-bit value 0..65535" (R7). -/
abbrev Word := BitVec 16

/-- "A bus word is an unsigned 32-bit value" (R7). -/
abbrev BusWord := BitVec 32

/-- The width of TX_LEN and RX_LEN, bits [8:0] (R40, R41). -/
abbrev Length := BitVec 9

end Sys2Proof
end

