-- ==== Sys2Proof/Config.lean ====
section
/-! DEFINITION. The implementation parameters of rule R6 (spec/00_scope.md) that are fixed for this hardware. The one
OPEN parameter, `BASE`, is the field `base` of `State`. No value is left free by the spec, so there is no opaque
constant here. -/

namespace Sys2Proof.Config

/-- Register window size, 0x2000 bytes: offsets 0x0000 to 0x1FFF (R6, R22). It is also the alignment of BASE (R63). -/
def windowSize : Nat := 0x2000

/-- `TXBUF_SIZE`, `RXBUF_SIZE`, `WDATA_SIZE` and `RDATA_SIZE`: 256 entries each (R6, D12). -/
def bufSize : Nat := 256

/-- The identification constant, "MBR1" in ASCII (R24, D29). -/
def idValue : BusWord := 0x4D425231#32

/-- CRC polynomial, reflected form (R6, R110). -/
def crcPoly : Word := 0xA001#16

/-- CRC initial value (R6, R110). -/
def crcInitial : Word := 0xFFFF#16

/-- `MAXQ_BITS`, the largest quantity for functions 0x01 and 0x02 (R6, D10). -/
def maxqBits : Nat := 2000

/-- `MAXQ_REGS`, the largest quantity for functions 0x03 and 0x04 (R6, D10). -/
def maxqRegs : Nat := 125

/-- `MAXQ_WREGS`, the largest quantity for function 0x10 (R6, D10). -/
def maxqWregs : Nat := 123

/-- The write-single-coil value for ON (R39, R86). -/
def coilOn : Word := 0xFF00#16

/-- The write-single-coil value for OFF (R39, R86). -/
def coilOff : Word := 0x0000#16

/-- The length of the shortest frame of any function, the exception response (R92, R162). -/
def minFrame : Nat := 5

end Sys2Proof.Config
end

