-- ==== Sys2Proof/Syntax.lean ====
section
/-! DEFINITION. The operations of spec/opcode_table.json as one inductive, the locations they name (the register map
of R22, spec/10_state.md), and the host accesses that encode them (R96, spec/30_encoding.md). -/

namespace Sys2Proof

/-- The seven Modbus functions of `FNSET` (R82), by the suffix of their BUILD and PARSE mnemonics (R81). -/
inductive Fn
  | rc    -- Read Coils
  | rdi   -- Read Discrete Inputs
  | rhr   -- Read Holding Registers
  | rir   -- Read Input Registers
  | wsc   -- Write Single Coil
  | wsr   -- Write Single Register
  | wmr   -- Write Multiple Registers
  deriving DecidableEq, Repr

/-- The locations that a host write reaches as REG_WRITE (R204): every location of the register map (R22) but CTRL, CMD,
STATUS, CRC_ACC and CRC_DATA. A hole is named by its byte offset. -/
inductive PlainLoc
  | id
  | slaveAddr
  | startAddr
  | count
  | value
  | txLen
  | rxLen
  | crcChk
  | hole (off : Nat)
  | txBuf (i : Fin 256)
  | rxBuf (i : Fin 256)
  | wdata (j : Fin 256)
  | rdata (j : Fin 256)
  deriving DecidableEq, Repr

/-- Every location of the register map (R22). -/
inductive Loc
  | ctrl
  | cmd
  | status
  | crcAcc
  | crcData
  | plain (p : PlainLoc)
  deriving DecidableEq, Repr

/-- One constructor per row of spec/opcode_table.json. The operand `v` is the 32-bit value the host writes, reserved
bits included; each meaning picks the bits its rule defines. -/
inductive Instr
  -- the sixteen command words of R81
  | crcInit
  | buildRc
  | buildRdi
  | buildRhr
  | buildRir
  | buildWsc
  | buildWsr
  | buildWmr
  | parseRc
  | parseRdi
  | parseRhr
  | parseRir
  | parseWsc
  | parseWsr
  | parseWmr
  | loopback
  -- the register accesses of R84
  | crcByte (v : BusWord)
  | crcSet (v : BusWord)
  | crcRead
  | softReset (v : BusWord)
  | statusClear (v : BusWord)
  | regWrite (l : PlainLoc) (v : BusWord)
  | regRead (l : Loc)
  deriving DecidableEq, Repr

/-- The direction of a host access (R96). -/
inductive Dir
  | read
  | write
  deriving DecidableEq, Repr

/-- The width of one bus transfer. Only `word`, 32 bits, is defined (R62, R65). -/
inductive AccessWidth
  | byte
  | half
  | word
  deriving DecidableEq, Repr

/-- How the host issues the access. Only `single` is defined (R62). -/
inductive AccessKind
  | single
  | locked
  | burst (beats : Nat)
  deriving DecidableEq, Repr

/-- A host access as it stands on the bus: the triple (direction, offset, data) of R96 with the width and kind that R62
speaks of, and the address before the block has taken `BASE` from it (R63). -/
structure BusAccess where
  dir   : Dir
  width : AccessWidth
  kind  : AccessKind
  addr  : Nat
  data  : BusWord
  deriving DecidableEq, Repr

/-- What the world outside the block can do to it: a host access (R20) or a power-on reset (R250, R252). -/
inductive HostEvent
  | access (a : BusAccess)
  | powerOn
  deriving DecidableEq, Repr

end Sys2Proof
end

