-- ==== Sys2Proof/WellFormed.lean ====
section
/-! DEFINITION. When a term of `Instr` is one that the encodings of spec/30_encoding.md can name. -/

namespace Sys2Proof

/-- The holes of the register map: the aligned offsets 0x034 to 0x3FC and 0x1400 to 0x1FFC (R22, R64). -/
def isHoleOffset (off : Nat) : Bool :=
  off % 4 == 0 && ((0x034 ≤ off && off ≤ 0x3FC) || (0x1400 ≤ off && off ≤ 0x1FFC))

/-- A named hole lies in a hole. -/
def PlainLoc.wf : PlainLoc → Bool
  | .hole off => isHoleOffset off
  | _ => true

/-- A named location exists in the register map. -/
def Loc.wf : Loc → Bool
  | .plain p => p.wf
  | _ => true

/-- The instruction is the reading of some host access. A read of CRC_ACC is CRC_READ (R84, R114), so REG_READ at that
location is a second name of it and is not well formed (notes/assumptions/7.md); it has a meaning all the same. -/
def Instr.wf : Instr → Bool
  | .regWrite l _ => l.wf
  | .regRead l => l.wf && l != .crcAcc
  | _ => true

end Sys2Proof
end

