-- ==== Sys2Proof/Decode.lean ====
section
/-! DEFINITION. Decoding a host access into an instruction (R61, R62, R63, R64, R82, R84), total, rejecting by name; then
the encoder, from the same tables (R81, R84); then the host's two-number form of an opcode-table word. -/

namespace Sys2Proof

/-- Why an access is not an instruction of the table. -/
inductive Reject
  /-- no byte of the access lies in the window: it does not reach the block (R63) -/
  | outsideWindow
  /-- a burst (R62) -/
  | burstAccess
  /-- a locked access (R62) -/
  | lockedAccess
  /-- a byte or halfword access (R62) -/
  | narrowAccess
  /-- an access whose offset is not a multiple of 4 (R62) -/
  | misalignedAccess
  /-- a write to CMD of a value that R81 does not list: BAD_COMMAND (R83, R206) -/
  | illegalCommand (v : BusWord)
  deriving DecidableEq, Repr

/-- The function code of a function (R81, R95). -/
def Fn.code : Fn → Byte
  | .rc => 0x01#8
  | .rdi => 0x02#8
  | .rhr => 0x03#8
  | .rir => 0x04#8
  | .wsc => 0x05#8
  | .wsr => 0x06#8
  | .wmr => 0x10#8

/-- The functions of `FNSET` (R82), in the order of R81. -/
def fnSet : List Fn := [.rc, .rdi, .rhr, .rir, .wsc, .wsr, .wmr]

/-- The function a code byte names, if it is in `FNSET` (R82). -/
def fnOfCode (c : Byte) : Option Fn := fnSet.find? (fun f => f.code == c)

/-- BUILD(fn) by its row of the table (R81). -/
def buildOf : Fn → Instr
  | .rc => .buildRc
  | .rdi => .buildRdi
  | .rhr => .buildRhr
  | .rir => .buildRir
  | .wsc => .buildWsc
  | .wsr => .buildWsr
  | .wmr => .buildWmr

/-- PARSE(fn) by its row of the table (R81). -/
def parseOf : Fn → Instr
  | .rc => .parseRc
  | .rdi => .parseRdi
  | .rhr => .parseRhr
  | .rir => .parseRir
  | .wsc => .parseWsc
  | .wsr => .parseWsr
  | .wmr => .parseWmr

/-- OP, bits [7:0] of a command word (R80). -/
def cmdOp (v : BusWord) : Byte := v.extractLsb' 0 8

/-- FN, bits [15:8] of a command word (R80). -/
def cmdFn (v : BusWord) : Byte := v.extractLsb' 8 8

/-- RSV, bits [31:16] of a command word (R80). -/
def cmdRsv (v : BusWord) : Word := v.extractLsb' 16 16

/-- The decode procedure of R82; `none` is its BAD_COMMAND. -/
def decodeCmd (v : BusWord) : Option Instr :=
  if cmdRsv v ≠ 0x0000#16 then none
  else if cmdOp v = 0x01#8 ∧ cmdFn v = 0x00#8 then some .crcInit
  else if cmdOp v = 0x30#8 ∧ cmdFn v = 0x00#8 then some .loopback
  else if cmdOp v = 0x10#8 then (fnOfCode (cmdFn v)).map buildOf
  else if cmdOp v = 0x20#8 then (fnOfCode (cmdFn v)).map parseOf
  else none

/-- The buffer entry at byte `off` of a buffer that begins at `first`: "the index is `(off - first_offset) / 4`" (R64). -/
def entryIndex (first off : Nat) : Fin 256 := Fin.ofNat 256 ((off - first) / 4)

/-- The rows of the register map that are single registers, with their offsets (R22). -/
def registerMap : List (Nat × Loc) :=
  [(0x000, .plain .id), (0x004, .ctrl), (0x008, .cmd), (0x00C, .status), (0x010, .crcAcc), (0x014, .crcData),
   (0x018, .plain .slaveAddr), (0x01C, .plain .startAddr), (0x020, .plain .count), (0x024, .plain .value),
   (0x028, .plain .txLen), (0x02C, .plain .rxLen), (0x030, .plain .crcChk)]

/-- The location at an aligned offset of the window: a register, a buffer entry, or a hole (R22, R64). -/
def locAt (off : Nat) : Loc :=
  match registerMap.lookup off with
  | some l => l
  | none =>
    if off < 0x400 then .plain (.hole off)
    else if off < 0x800 then .plain (.txBuf (entryIndex 0x400 off))
    else if off < 0xC00 then .plain (.rxBuf (entryIndex 0x800 off))
    else if off < 0x1000 then .plain (.wdata (entryIndex 0xC00 off))
    else if off < 0x1400 then .plain (.rdata (entryIndex 0x1000 off))
    else .plain (.hole off)

/-- What a BusWrite of `v` at a location is (R61, R84, R204). SOFT_RESET and STATUS_CLEAR carry the written value and
test their bit themselves, as the pseudocode of R202 and R203 does (notes/assumptions/6.md). -/
def decodeWrite (l : Loc) (v : BusWord) : Except Reject Instr :=
  match l with
  | .ctrl => .ok (.softReset v)
  | .cmd => match decodeCmd v with
    | some i => .ok i
    | none => .error (.illegalCommand v)
  | .status => .ok (.statusClear v)
  | .crcAcc => .ok (.crcSet v)
  | .crcData => .ok (.crcByte v)
  | .plain p => .ok (.regWrite p v)

/-- What a BusRead at a location is (R60, R84): the read of CRC_ACC is CRC_READ, any other is REG_READ. -/
def decodeRead (l : Loc) : Instr :=
  match l with
  | .crcAcc => .crcRead
  | l => .regRead l

/-- The bytes of one transfer of a width. -/
def AccessWidth.bytes : AccessWidth → Nat
  | .byte => 1
  | .half => 2
  | .word => 4

/-- How many bytes of the address space an access covers, from its address upwards. R62 names a burst and gives it no
shape: that its beats follow one another upwards, neither wrapping nor at one address, and that a burst of 0 beats covers
what one beat covers, is the model's choice (DESIGN CHOICE, notes/assumptions/20.md). -/
def BusAccess.span (a : BusAccess) : Nat :=
  match a.kind with
  | .burst beats => a.width.bytes * max 1 beats
  | _ => a.width.bytes

/-- Some byte of the access lies in `BASE` to `BASE + 0x1FFF`, so that it reaches the block (R63,
notes/assumptions/9.md; for a burst, 20.md). -/
def BusAccess.reaches (base : Nat) (a : BusAccess) : Bool :=
  a.addr < base + Config.windowSize && base < a.addr + a.span

/-- The reading of a host access by a block placed at `base`, or the name of why there is none. -/
def decode (base : Nat) (a : BusAccess) : Except Reject Instr :=
  if a.reaches base = false then .error .outsideWindow
  else if a.kind = .locked then .error .lockedAccess
  else if a.kind ≠ .single then .error .burstAccess
  else if a.width ≠ .word then .error .narrowAccess
  else if a.addr < base ∨ (a.addr - base) % 4 ≠ 0 then .error .misalignedAccess
  else match a.dir with
    | .read => .ok (decodeRead (locAt (a.addr - base)))
    | .write => decodeWrite (locAt (a.addr - base)) a.data

/-- The offset of a plain location (R22, R64). -/
def PlainLoc.offset : PlainLoc → Nat
  | .id => 0x000
  | .slaveAddr => 0x018
  | .startAddr => 0x01C
  | .count => 0x020
  | .value => 0x024
  | .txLen => 0x028
  | .rxLen => 0x02C
  | .crcChk => 0x030
  | .hole off => off
  | .txBuf i => 0x400 + 4 * i.val
  | .rxBuf i => 0x800 + 4 * i.val
  | .wdata j => 0xC00 + 4 * j.val
  | .rdata j => 0x1000 + 4 * j.val

/-- The offset of a location (R22). -/
def Loc.offset : Loc → Nat
  | .ctrl => 0x004
  | .cmd => 0x008
  | .status => 0x00C
  | .crcAcc => 0x010
  | .crcData => 0x014
  | .plain p => p.offset

/-- The aligned 32-bit read of an offset (R60). -/
def busRead (base off : Nat) : BusAccess := ⟨.read, .word, .single, base + off, 0⟩

/-- The aligned 32-bit write of `v` to an offset (R61). -/
def busWrite (base off : Nat) (v : BusWord) : BusAccess := ⟨.write, .word, .single, base + off, v⟩

/-- The access that an instruction stands for, for a block placed at `base`: the command words of R81 written to CMD
and the accesses of R84. -/
def encode (base : Nat) : Instr → BusAccess
  | .crcInit => busWrite base 0x008 0x00000001#32
  | .buildRc => busWrite base 0x008 0x00000110#32
  | .buildRdi => busWrite base 0x008 0x00000210#32
  | .buildRhr => busWrite base 0x008 0x00000310#32
  | .buildRir => busWrite base 0x008 0x00000410#32
  | .buildWsc => busWrite base 0x008 0x00000510#32
  | .buildWsr => busWrite base 0x008 0x00000610#32
  | .buildWmr => busWrite base 0x008 0x00001010#32
  | .parseRc => busWrite base 0x008 0x00000120#32
  | .parseRdi => busWrite base 0x008 0x00000220#32
  | .parseRhr => busWrite base 0x008 0x00000320#32
  | .parseRir => busWrite base 0x008 0x00000420#32
  | .parseWsc => busWrite base 0x008 0x00000520#32
  | .parseWsr => busWrite base 0x008 0x00000620#32
  | .parseWmr => busWrite base 0x008 0x00001020#32
  | .loopback => busWrite base 0x008 0x00000030#32
  | .crcByte v => busWrite base 0x014 v
  | .crcSet v => busWrite base 0x010 v
  | .crcRead => busRead base 0x010
  | .softReset v => busWrite base 0x004 v
  | .statusClear v => busWrite base 0x00C v
  | .regWrite l v => busWrite base l.offset v
  | .regRead l => busRead base l.offset

/-- The access that a word of spec/opcode_table.json stands for. The table numbers the bits of two things: a row of
format CMD (32 bits) gives the value written to CMD, and a row of format BUS (13 bits, so at most 16) gives the window
offset. The direction and the data of a BUS row are no bits of the table, so they are zero: direction bit 0 is a write
(notes/assumptions/11.md). -/
def tableAccess (base nbits w : Nat) : BusAccess :=
  if nbits ≤ 16 then busWrite base w 0#32
  else busWrite base 0x008 (BitVec.ofNat 32 w)

/-- The instruction that the decoder reads from an opcode-table word. -/
def decodeTableWord (nbits w : Nat) : Option Instr :=
  match decode 0 (tableAccess 0 nbits w) with
  | .ok i => some i
  | .error _ => none

end Sys2Proof
end

