-- ==== Sys2Proof/Machine/State.lean ====
section
/-! DEFINITION. The state of the block (spec/10_state.md), the reasons a step can stop, and the state after power-on
reset (R250, spec/70_reset_and_hazards.md). -/

namespace Sys2Proof.Machine

/-- The result codes of R28. Codes 10 to 15 are reserved and "the block never writes them", so the type has no name for
them (notes/assumptions/14.md). -/
inductive ResultCode
  | none
  | ok
  | invalidResponse
  | addressMismatch
  | modbusException
  | functionMismatch
  | bytecountMismatch
  | crcMismatch
  | badCommand
  | badArgument
  deriving DecidableEq, Repr

/-- STATUS by its fields (R27). Its reserved bits [7:6] and [30:24] read 0 and hold nothing (R23). -/
structure Status where
  result : ResultCode
  trail  : Bool
  coil0  : Bool
  exc    : Byte
  rcnt   : Byte
  sticky : Bool
  deriving DecidableEq, Repr

/-- A buffer: the entries that have a value, by their index, lowest first. An entry that is not listed has no value
(R48). A byte buffer is a list of `Host.Cell`; WDATA and RDATA have 16-bit entries (R45, R46, notes/assumptions/5.md). -/
abbrev Memory (w : Nat) := List (Nat × BitVec w)

/-- The canonical form of a buffer: indexes strictly rising, each below 256 (R43 to R46). Nothing listed reads as an
unlisted entry does, since that has no value. -/
abbrev Memory.wf {w : Nat} (m : Memory w) : Prop :=
  m.Pairwise (fun c d => c.1 < d.1) ∧ ∀ c ∈ m, c.1 < Config.bufSize

/-- The four buffers (R43 to R46). -/
inductive Buffer
  | txBuf
  | rxBuf
  | wdata
  | rdata
  deriving DecidableEq, Repr

/-- Why the machine stops with a fault. -/
inductive Fault
  /-- Raised by REG_READ, PARSE, BUILD.WMR and LOOPBACK when they read an entry `i` of buffer `b` that nothing has
  written since power-on: "a fault of the model rather than a value" (R48). Safe. -/
  | unwrittenEntry (b : Buffer) (i : Nat)
  deriving DecidableEq, Repr

/-- Why the machine has no step for an access. -/
inductive Refusal
  /-- Answered by `exec` alone, for an instruction of the table that has no meaning yet. Safe. -/
  | notModelled (mnemonic : String)
  /-- Answered by a step on a byte or halfword access: "A model refuses such an access; it has no step" (R62). Safe. -/
  | narrowAccess
  /-- Answered by a step on an access whose offset is not a multiple of 4 (R62). Safe. -/
  | misalignedAccess
  /-- Answered by a step on a burst (R62). Safe. -/
  | burstAccess
  /-- Answered by a step on a locked access (R62). Safe. -/
  | lockedAccess
  deriving DecidableEq, Repr

/-- The registers and buffers of R22, and the model's own fields `base`, `pending` and `response`. A register holds its
defined bits; its reserved bits read 0 (R23). ID, CTRL, CMD and CRC_DATA hold nothing (R24, R25, R26, R35). -/
structure State where
  /-- STATUS (R27) -/
  status : Status
  /-- CRC_ACC (R34) -/
  crcAcc : Word
  /-- SLAVE_ADDR (R36) -/
  slaveAddr : Byte
  /-- START_ADDR (R37) -/
  startAddr : Word
  /-- COUNT (R38) -/
  count : Word
  /-- VALUE (R39) -/
  value : Word
  /-- TX_LEN (R40) -/
  txLen : Length
  /-- RX_LEN (R41) -/
  rxLen : Length
  /-- CRC_CHK, the word {RECV, CALC} (R42) -/
  crcChk : BusWord
  /-- TX_BUF (R43) -/
  txBuf : Memory 8
  /-- RX_BUF (R44) -/
  rxBuf : Memory 8
  /-- WDATA (R45) -/
  wdata : Memory 16
  /-- RDATA (R46) -/
  rdata : Memory 16
  /-- the platform parameter BASE (R6, R49, R63); no step changes it (notes/assumptions/3.md) -/
  base : Nat
  /-- the host's accesses and resets that the block has not performed, in arrival order (R66, notes/assumptions/1.md) -/
  pending : List HostEvent
  /-- what the last performed access returned to the host: the value of a read, `none` for a write
  (R60, notes/assumptions/2.md) -/
  response : Option BusWord
  deriving DecidableEq, Repr

/-- STATUS after either reset: "every field of STATUS is 0" (R250). -/
def Status.reset : Status := ⟨.none, false, false, 0#8, 0#8, false⟩

/-- The block right after power-on reset, placed at `base`, with nothing arrived from the host (R250). -/
def State.resetAt (base : Nat) : State where
  status := Status.reset
  crcAcc := Config.crcInitial
  slaveAddr := 0#8
  startAddr := 0#16
  count := 0#16
  value := 0#16
  txLen := 0#9
  rxLen := 0#9
  crcChk := 0#32
  txBuf := []
  rxBuf := []
  wdata := []
  rdata := []
  base := base
  pending := []
  response := none

/-- The machine right after reset. Every register has the value of R250; BASE is OPEN and stands at 0 here
(notes/assumptions/3.md). -/
def State.reset : State := State.resetAt 0

end Sys2Proof.Machine
end

