-- ==== Sys2Proof/Machine/Flags.lean ====
section
/-! DEFINITION. STATUS: its result codes, its 32-bit word, and the rule that writes it at the end of a command
(R27, R28, R222). -/

namespace Sys2Proof.Machine

/-- The code of a result (R28). -/
def ResultCode.code : ResultCode → BitVec 4
  | .none => 0#4
  | .ok => 1#4
  | .invalidResponse => 2#4
  | .addressMismatch => 3#4
  | .modbusException => 4#4
  | .functionMismatch => 5#4
  | .bytecountMismatch => 6#4
  | .crcMismatch => 7#4
  | .badCommand => 8#4
  | .badArgument => 9#4

/-- A RESULT of 2 or more, which sets STICKY (R33, R222). -/
def ResultCode.isError (r : ResultCode) : Bool := 2 ≤ r.code.toNat

/-- STATUS as a host reads it: RESULT [3:0], TRAIL [4], COIL0 [5], EXC [15:8], RCNT [23:16], STICKY [31], the rest 0 (R27). -/
def Status.toWord (st : Status) : BusWord :=
  BitVec.ofBool st.sticky ++ 0#7 ++ st.rcnt ++ st.exc ++ 0#2 ++ BitVec.ofBool st.coil0 ++ BitVec.ofBool st.trail ++
    st.result.code

/-- STATUS at the end of a command: the five fields are written whatever they held, and STICKY is set by a RESULT of 2 or
more and otherwise kept (R222, R228). -/
def Status.report (old : Status) (code : ResultCode) (trail coil0 : Bool) (exc rcnt : Byte) : Status where
  result := code
  trail := trail
  coil0 := coil0
  exc := exc
  rcnt := rcnt
  sticky := old.sticky || code.isError

/-- STATUS after STICKY is cleared: "only STICKY" is written (R203). -/
def Status.clearSticky (st : Status) : Status := { st with sticky := false }

end Sys2Proof.Machine
end

