-- ==== Sys2Proof/Machine/Ops.lean ====
section
/-! DEFINITION. The named operations over the buffers, the end of a command (`finish` and `raise`, R10, R222), and the two
resets (R250, R251). The block has no trap, so no exception entry and no return: an error is the result code that `raise`
writes, and the next access is performed normally (R221, R228). -/

namespace Sys2Proof.Machine

/-- The value of entry `i`, if it has one (R48). -/
def Memory.read {w : Nat} : Memory w → Nat → Option (BitVec w)
  | [], _ => none
  | (j, v) :: m, i => if i = j then some v else if i < j then none else Memory.read m i

/-- Write entry `i`, keeping the indexes rising. -/
def Memory.write {w : Nat} : Memory w → Nat → BitVec w → Memory w
  | [], i, v => [(i, v)]
  | (j, u) :: m, i, v =>
    if i < j then (i, v) :: (j, u) :: m
    else if i = j then (i, v) :: m
    else (j, u) :: Memory.write m i v

/-- Write `vs` to the entries from `i` on, in order. -/
def Memory.writeFrom {w : Nat} : Memory w → Nat → List (BitVec w) → Memory w
  | m, _, [] => m
  | m, i, v :: vs => Memory.writeFrom (Memory.write m i v) (i + 1) vs

/-- Read the `n` entries from `i` on, in order, or name the first of them that has no value. -/
def Memory.readFrom {w : Nat} (m : Memory w) : Nat → Nat → Except Nat (List (BitVec w))
  | _, 0 => .ok []
  | i, n + 1 => match Memory.read m i with
    | none => .error i
    | some v => match Memory.readFrom m (i + 1) n with
      | .error j => .error j
      | .ok vs => .ok (v :: vs)

/-- The buffer whose entries from `i` on are `vs`, and that has no other. -/
def Memory.ofEntries {w : Nat} : Nat → List (BitVec w) → Memory w
  | _, [] => []
  | i, v :: vs => (i, v) :: Memory.ofEntries (i + 1) vs

/-- All 256 entries: `vs`, then 0 (`clear_rdata_from`, R178). -/
def Memory.fill {w : Nat} (vs : List (BitVec w)) : Memory w :=
  Memory.ofEntries 0 (vs ++ List.replicate (Config.bufSize - vs.length) 0)

/-- `finish(OK, …)`: end a command with OK (R10, R222). A field that a rule does not name is given as 0. -/
def finish (trail coil0 : Bool) (rcnt : Byte) (s : State) : State :=
  { s with status := s.status.report .ok trail coil0 0#8 rcnt }

/-- `raise code`: end a command with an error (R10, R222). It writes STATUS and nothing else (R221). `trail` is 1 only
for a PARSE past its length check, and `exc` is the exception code of MODBUS_EXCEPTION, else 0. -/
def raise (code : ResultCode) (trail : Bool) (exc : Byte) (s : State) : State :=
  { s with status := s.status.report code trail false exc 0#8 }

/-- `soft_reset()`: every register to its power-on value, every buffer kept (R251). -/
def softResetOp (s : State) : State :=
  { s with
    status := Status.reset
    crcAcc := Config.crcInitial
    slaveAddr := 0#8
    startAddr := 0#16
    count := 0#16
    value := 0#16
    txLen := 0#9
    rxLen := 0#9
    crcChk := 0#32 }

/-- Power-on reset: the state of R250, the buffers without values. The window stays where the platform placed it, and
accesses that have yet to arrive still arrive (notes/assumptions/15.md). -/
def powerOnReset (s : State) : State :=
  { State.resetAt s.base with pending := s.pending }

/-- Take the next access off the host's stream: `rest` is what has yet to arrive, and nothing is returned so far. -/
def accept (rest : List HostEvent) (s : State) : State :=
  { s with pending := rest, response := none }

end Sys2Proof.Machine
end

