-- ==== Sys2Proof/Machine/Operands.lean ====
section
/-! DEFINITION. Operands: bytes and words (R8, R71, R94), and the locations of the register map as a host reads and
writes them (R22, R60, R61, R204, R205). -/

namespace Sys2Proof.Machine

/-- `w[15:8]` (R7). -/
def hiByte (w : Word) : Byte := w.extractLsb' 8 8

/-- `w[7:0]` (R7). -/
def loByte (w : Word) : Byte := w.extractLsb' 0 8

/-- `{hi, lo}`, the 16-bit word with `hi` in the high bits (R8, R94). -/
def wordOf (hi lo : Byte) : Word := hi ++ lo

/-- The two bytes of a payload word in wire order: "the high byte comes first" (R71). -/
def wireBytes (w : Word) : List Byte := [hiByte w, loByte w]

/-- The two bytes of a CRC in wire order: low byte first (R71, R130). -/
def crcBytes (c : Word) : List Byte := [loByte c, hiByte c]

/-- Big-endian words from the wire (R88, R94). -/
def wordsOf : List Byte → List Word
  | hi :: lo :: bs => wordOf hi lo :: wordsOf bs
  | _ => []

/-- `CRC_CHK = {RECV, CALC}` (R42). -/
def crcChkOf (received computed : Word) : BusWord := received ++ computed

/-- Zero-extend an entry for the bus; an entry without a value is a model fault (R48). -/
def readEntry {w : Nat} (b : Buffer) (m : Memory w) (i : Nat) : Except Fault BusWord :=
  match Memory.read m i with
  | none => .error (.unwrittenEntry b i)
  | some v => .ok (v.setWidth 32)

/-- The value a host reads at a plain location (R22, R205). -/
def readPlain (s : State) : PlainLoc → Except Fault BusWord
  | .id => .ok Config.idValue
  | .slaveAddr => .ok (s.slaveAddr.setWidth 32)
  | .startAddr => .ok (s.startAddr.setWidth 32)
  | .count => .ok (s.count.setWidth 32)
  | .value => .ok (s.value.setWidth 32)
  | .txLen => .ok (s.txLen.setWidth 32)
  | .rxLen => .ok (s.rxLen.setWidth 32)
  | .crcChk => .ok s.crcChk
  | .hole _ => .ok 0#32
  | .txBuf i => readEntry .txBuf s.txBuf i.val
  | .rxBuf i => readEntry .rxBuf s.rxBuf i.val
  | .wdata j => readEntry .wdata s.wdata j.val
  | .rdata j => readEntry .rdata s.rdata j.val

/-- The value a host reads at a location (R22, R60): CTRL, CMD and CRC_DATA read 0. -/
def readLoc (s : State) : Loc → Except Fault BusWord
  | .ctrl => .ok 0#32
  | .cmd => .ok 0#32
  | .status => .ok s.status.toWord
  | .crcAcc => .ok (s.crcAcc.setWidth 32)
  | .crcData => .ok 0#32
  | .plain p => readPlain s p

/-- A host write at a plain location: the defined bits are stored, and a read-only location or a hole ignores it
(R23, R204). -/
def writePlain (s : State) (v : BusWord) : PlainLoc → State
  | .slaveAddr => { s with slaveAddr := v.extractLsb' 0 8 }
  | .startAddr => { s with startAddr := v.extractLsb' 0 16 }
  | .count => { s with count := v.extractLsb' 0 16 }
  | .value => { s with value := v.extractLsb' 0 16 }
  | .rxLen => { s with rxLen := v.extractLsb' 0 9 }
  | .rxBuf i => { s with rxBuf := s.rxBuf.write i.val (v.extractLsb' 0 8) }
  | .wdata j => { s with wdata := s.wdata.write j.val (v.extractLsb' 0 16) }
  | .id => s
  | .txLen => s
  | .crcChk => s
  | .hole _ => s
  | .txBuf _ => s
  | .rdata _ => s

/-- The functions whose response carries a byte count, `READS` of spec/42_decoder.md. -/
def isRead : Fn → Bool
  | .rc | .rdi | .rhr | .rir => true
  | .wsc | .wsr | .wmr => false

/-- The quantity range of a function that has one (R139, R161); a write-single function has none. -/
def countOk : Fn → Word → Bool
  | .rc, n | .rdi, n => 1 ≤ n.toNat && n.toNat ≤ Config.maxqBits
  | .rhr, n | .rir, n => 1 ≤ n.toNat && n.toNat ≤ Config.maxqRegs
  | .wmr, n => 1 ≤ n.toNat && n.toNat ≤ Config.maxqWregs
  | .wsc, _ | .wsr, _ => true

end Sys2Proof.Machine
end

