-- ==== Sys2Proof/Machine/Control.lean ====
section
/-! DEFINITION. Loopback, soft reset, clearing STICKY, plain register access (spec/43_control.md, R200 to R205), and what
the block does with an access that is no instruction of the table (R62, R63, R206). -/

namespace Sys2Proof.Machine

/-- LOOPBACK (R200). A TX_BUF entry below TX_LEN without a value is a model fault (R48). -/
def execLoopback (s : State) : Host.Outcome State Fault Refusal :=
  match s.txBuf.readFrom 0 s.txLen.toNat with
  | .error i => .fault (.unwrittenEntry .txBuf i)
  | .ok bs => .next (finish false false 0#8 { s with rxBuf := s.rxBuf.writeFrom 0 bs, rxLen := s.txLen })

/-- SOFT_RESET (R202): "if v[0] == 1: soft_reset()". A write of 0 to that bit has no effect (R84). -/
def execSoftReset (v : BusWord) (s : State) : Host.Outcome State Fault Refusal :=
  .next (if v.getLsbD 0 then softResetOp s else s)

/-- STATUS_CLEAR (R203): "if v[31] == 1: STATUS.STICKY <- 0". -/
def execStatusClear (v : BusWord) (s : State) : Host.Outcome State Fault Refusal :=
  .next (if v.getLsbD 31 then { s with status := s.status.clearSticky } else s)

/-- REG_WRITE (R204). -/
def execRegWrite (l : PlainLoc) (v : BusWord) (s : State) : Host.Outcome State Fault Refusal :=
  .next (writePlain s v l)

/-- REG_READ (R205): the host gets the value and the block does not change (R60). -/
def execRegRead (l : Loc) (s : State) : Host.Outcome State Fault Refusal :=
  match readLoc s l with
  | .error f => .fault f
  | .ok v => .next { s with response := some v }

/-- What follows an access that is no instruction of the table: an illegal command word raises BAD_COMMAND (R206), an
access outside the window does not reach the block (R63), and any other access is refused under its own name (R62). -/
def answerReject (r : Reject) (s : State) : Host.Outcome State Fault Refusal :=
  match r with
  | .illegalCommand _ => .next (raise .badCommand false 0#8 s)
  | .outsideWindow => .next s
  | .burstAccess => .refused .burstAccess
  | .lockedAccess => .refused .lockedAccess
  | .narrowAccess => .refused .narrowAccess
  | .misalignedAccess => .refused .misalignedAccess

end Sys2Proof.Machine
end

