-- ==== Sys2Proof/Machine/Crc.lean ====
section
/-! DEFINITION. The CRC function of R110 (spec/40_crc.md) and the operations of the accumulator, R111 to R114. -/

namespace Sys2Proof.Machine

/-- One iteration: "if the low bit is set, shift right and XOR with 0xA001, else shift right" (R110). -/
def crcIter (acc : Word) : Word :=
  if acc.getLsbD 0 then (acc >>> 1) ^^^ Config.crcPoly else acc >>> 1

/-- `n` iterations (R110). -/
def crcIters : Nat → Word → Word
  | 0, acc => acc
  | n + 1, acc => crcIters n (crcIter acc)

/-- `crc_step`: XOR the byte into the low 8 bits, then 8 iterations (R110). -/
def crcStep (acc : Word) (b : Byte) : Word := crcIters 8 (acc ^^^ b.setWidth 16)

/-- `crc16` (R110): from 0xFFFF, one `crc_step` for each byte in order, no final XOR. -/
def crc16 (bs : List Byte) : Word := bs.foldl crcStep Config.crcInitial

/-- CRC_INIT (R111). -/
def execCrcInit (s : State) : Host.Outcome State Fault Refusal :=
  .next (finish false false 0#8 { s with crcAcc := Config.crcInitial })

/-- CRC_BYTE (R112): bits [31:8] of `v` are ignored and STATUS is not written. -/
def execCrcByte (v : BusWord) (s : State) : Host.Outcome State Fault Refusal :=
  .next { s with crcAcc := crcStep s.crcAcc (v.extractLsb' 0 8) }

/-- CRC_SET (R113): bits [31:16] of `v` are ignored and STATUS is not written. -/
def execCrcSet (v : BusWord) (s : State) : Host.Outcome State Fault Refusal :=
  .next { s with crcAcc := v.extractLsb' 0 16 }

/-- CRC_READ (R114): the host gets zext_32(CRC_ACC) and the block does not change. -/
def execCrcRead (s : State) : Host.Outcome State Fault Refusal :=
  .next { s with response := some (s.crcAcc.setWidth 32) }

end Sys2Proof.Machine
end

