-- ==== Sys2Proof/Machine/Encoder.lean ====
section
/-! DEFINITION. The frame encoder: BUILD (spec/41_encoder.md, R130 to R139) over the request layouts R85, R86 and R87. -/

namespace Sys2Proof.Machine

/-- No BAD_ARGUMENT: the negation of `check_build_args` (R139). -/
def buildArgsOk (fn : Fn) (n v : Word) : Bool :=
  match fn with
  | .wsc => v == Config.coilOn || v == Config.coilOff
  | fn => countOk fn n

/-- The six bytes before the CRC of an 8-byte request: address, function, and two big-endian words (R85, R86). -/
def shortBody (fn : Fn) (a : Byte) (w1 w2 : Word) : List Byte :=
  [a, fn.code] ++ wireBytes w1 ++ wireBytes w2

/-- The bytes before the CRC of a write-multiple request (R87, R137). The byte count `(2*N)[7:0]` is exact, since
N ≤ 123 when it is built (R94). -/
def multipleBody (a : Byte) (start n : Word) (ws : List Word) : List Byte :=
  [a, Fn.wmr.code] ++ wireBytes start ++ wireBytes n ++ [BitVec.ofNat 8 (2 * n.toNat)] ++ ws.flatMap wireBytes

/-- `body(fn, A, S, N, V)` (R131 to R137), or the first WDATA entry it needs that has no value (R48). -/
def requestBody (fn : Fn) (s : State) : Except Nat (List Byte) :=
  match fn with
  | .rc | .rdi | .rhr | .rir => .ok (shortBody fn s.slaveAddr s.startAddr s.count)
  | .wsc | .wsr => .ok (shortBody fn s.slaveAddr s.startAddr s.value)
  | .wmr => match s.wdata.readFrom 0 s.count.toNat with
    | .error j => .error j
    | .ok ws => .ok (multipleBody s.slaveAddr s.startAddr s.count ws)

/-- The request: its body and the CRC of the body, low byte first (R117, R130). -/
def frameOf (body : List Byte) : List Byte := body ++ crcBytes (crc16 body)

/-- The writes of a successful BUILD: TX_BUF, TX_LEN, CRC_CHK, then `finish(OK)` (R130). -/
def sendFrame (body : List Byte) (s : State) : State :=
  finish false false 0#8
    { s with
      txBuf := s.txBuf.writeFrom 0 (frameOf body)
      txLen := BitVec.ofNat 9 (frameOf body).length
      crcChk := crcChkOf (crc16 body) (crc16 body) }

/-- `BUILD(fn)` (R130): a failed argument check writes only STATUS (R138). -/
def build (fn : Fn) (s : State) : Host.Outcome State Fault Refusal :=
  if buildArgsOk fn s.count s.value then
    match requestBody fn s with
    | .error j => .fault (.unwrittenEntry .wdata j)
    | .ok body => .next (sendFrame body s)
  else .next (raise .badArgument false 0#8 s)

/-- BUILD.RC (R131). -/
def execBuildRc (s : State) : Host.Outcome State Fault Refusal := build .rc s

/-- BUILD.RDI (R132). -/
def execBuildRdi (s : State) : Host.Outcome State Fault Refusal := build .rdi s

/-- BUILD.RHR (R133). -/
def execBuildRhr (s : State) : Host.Outcome State Fault Refusal := build .rhr s

/-- BUILD.RIR (R134). -/
def execBuildRir (s : State) : Host.Outcome State Fault Refusal := build .rir s

/-- BUILD.WSC (R135). -/
def execBuildWsc (s : State) : Host.Outcome State Fault Refusal := build .wsc s

/-- BUILD.WSR (R136). -/
def execBuildWsr (s : State) : Host.Outcome State Fault Refusal := build .wsr s

/-- BUILD.WMR (R137). -/
def execBuildWmr (s : State) : Host.Outcome State Fault Refusal := build .wmr s

end Sys2Proof.Machine
end

