-- ==== Sys2Proof/Machine/FrameDecoder.lean ====
section
/-! DEFINITION. The frame decoder: PARSE (spec/42_decoder.md, R160 to R179) over the response layouts R88 to R92. -/

namespace Sys2Proof.Machine

/-- Bit 7 of the function byte: an exception response (R92, R167). -/
def isException (fnByte : Byte) : Bool := fnByte.getLsbD 7

/-- The frame length `F` from the received bytes (R93, R163): byte 1 is read, and byte 2 only for a read response that is
no exception. An entry without a value is named (R48). -/
def responseLength (fn : Fn) (rx : Memory 8) : Except Nat Nat :=
  match rx.read 1 with
  | none => .error 1
  | some r1 =>
    if isException r1 then .ok 5
    else if isRead fn then
      match rx.read 2 with
      | none => .error 2
      | some r2 => .ok (5 + r2.toNat)
    else .ok 8

/-- `ebc(fn, N)`, the expected byte count (R170); a write response has none. -/
def expectedByteCount (fn : Fn) (n : Word) : Nat :=
  match fn with
  | .rc | .rdi => (n.toNat + 7) / 8
  | .rhr | .rir => 2 * n.toNat
  | .wsc | .wsr | .wmr => 0

/-- Byte `i` of a frame that holds it. -/
def byteAt (f : List Byte) (i : Nat) : Byte := f.getD i 0#8

/-- `calc = crc16(r[0..F-3])` of a frame of `F` bytes (R165). -/
def calcCrc (f : List Byte) : Word := crc16 (f.take (f.length - 2))

/-- `recv = {r[F-1], r[F-2]}` of a frame of `F` bytes (R165). -/
def recvCrc (f : List Byte) : Word := wordOf (byteAt f (f.length - 1)) (byteAt f (f.length - 2))

/-- The decoded values of a good response (R171 to R177): the data bytes, the data words, or the two echoed words. -/
def decodedWords (fn : Fn) (n : Word) (f : List Byte) : List Word :=
  match fn with
  | .rc | .rdi => ((f.drop 3).take (expectedByteCount fn n)).map (fun b => b.setWidth 16)
  | .rhr | .rir => wordsOf ((f.drop 3).take (expectedByteCount fn n))
  | .wsc | .wsr | .wmr => wordsOf ((f.drop 2).take 4)

/-- `COIL0 = r[3][0]` for a coil or input read, else 0 (R30, R222). -/
def coil0Of (fn : Fn) (f : List Byte) : Bool :=
  match fn with
  | .rc | .rdi => (byteAt f 3).getLsbD 0
  | _ => false

/-- The outputs of a successful PARSE: RDATA and STATUS (R171 to R178). -/
def deliver (fn : Fn) (trail : Bool) (f : List Byte) (s : State) : State :=
  finish trail (coil0Of fn f) (BitVec.ofNat 8 (decodedWords fn s.count f).length)
    { s with rdata := Memory.fill (decodedWords fn s.count f) }

/-- Steps 3 to 8 of R160 on the `F` bytes of the frame: CRC (R165), address (R166), exception bit (R167), function
(R168), byte count (R169), outputs. -/
def judge (fn : Fn) (trail : Bool) (f : List Byte) (s : State) : State :=
  let s := { s with crcChk := crcChkOf (recvCrc f) (calcCrc f) }
  if calcCrc f ≠ recvCrc f then raise .crcMismatch trail 0#8 s
  else if byteAt f 0 ≠ s.slaveAddr then raise .addressMismatch trail 0#8 s
  else if isException (byteAt f 1) then raise .modbusException trail (byteAt f 2) s
  else if byteAt f 1 ≠ fn.code then raise .functionMismatch trail 0#8 s
  else if isRead fn ∧ (byteAt f 2).toNat ≠ expectedByteCount fn s.count then raise .bytecountMismatch trail 0#8 s
  else deliver fn trail f s

/-- `PARSE(fn)` (R160): steps 0 to 2 (R161, R162, R163), then `judge` on RX_BUF[0..F-1]. CRC_CHK is cleared first. -/
def parse (fn : Fn) (s : State) : Host.Outcome State Fault Refusal :=
  let s := { s with crcChk := 0#32 }
  if Config.bufSize < s.rxLen.toNat then .next (raise .badArgument false 0#8 s)
  else if isRead fn ∧ countOk fn s.count = false then .next (raise .badArgument false 0#8 s)
  else if s.rxLen.toNat < Config.minFrame then .next (raise .invalidResponse false 0#8 s)
  else match responseLength fn s.rxBuf with
    | .error i => .fault (.unwrittenEntry .rxBuf i)
    | .ok len =>
      if s.rxLen.toNat < len then .next (raise .invalidResponse false 0#8 s)
      else match s.rxBuf.readFrom 0 len with
        | .error i => .fault (.unwrittenEntry .rxBuf i)
        | .ok f => .next (judge fn (decide (len < s.rxLen.toNat)) f s)

/-- PARSE.RC (R171). -/
def execParseRc (s : State) : Host.Outcome State Fault Refusal := parse .rc s

/-- PARSE.RDI (R172). -/
def execParseRdi (s : State) : Host.Outcome State Fault Refusal := parse .rdi s

/-- PARSE.RHR (R173). -/
def execParseRhr (s : State) : Host.Outcome State Fault Refusal := parse .rhr s

/-- PARSE.RIR (R174). -/
def execParseRir (s : State) : Host.Outcome State Fault Refusal := parse .rir s

/-- PARSE.WSC (R175). -/
def execParseWsc (s : State) : Host.Outcome State Fault Refusal := parse .wsc s

/-- PARSE.WSR (R176). -/
def execParseWsr (s : State) : Host.Outcome State Fault Refusal := parse .wsr s

/-- PARSE.WMR (R177). -/
def execParseWmr (s : State) : Host.Outcome State Fault Refusal := parse .wmr s

end Sys2Proof.Machine
end

