-- ==== Sys2Proof/Machine/Dispatch.lean ====
section
/-! DEFINITION. One arm per instruction, each one call of its meaning. -/

namespace Sys2Proof.Machine

def exec (i : Instr) (s : State) : Host.Outcome State Fault Refusal :=
  match i with
  | .crcInit => Sys2Proof.Machine.execCrcInit s
  | .buildRc => Sys2Proof.Machine.execBuildRc s
  | .buildRdi => Sys2Proof.Machine.execBuildRdi s
  | .buildRhr => Sys2Proof.Machine.execBuildRhr s
  | .buildRir => Sys2Proof.Machine.execBuildRir s
  | .buildWsc => Sys2Proof.Machine.execBuildWsc s
  | .buildWsr => Sys2Proof.Machine.execBuildWsr s
  | .buildWmr => Sys2Proof.Machine.execBuildWmr s
  | .parseRc => Sys2Proof.Machine.execParseRc s
  | .parseRdi => Sys2Proof.Machine.execParseRdi s
  | .parseRhr => Sys2Proof.Machine.execParseRhr s
  | .parseRir => Sys2Proof.Machine.execParseRir s
  | .parseWsc => Sys2Proof.Machine.execParseWsc s
  | .parseWsr => Sys2Proof.Machine.execParseWsr s
  | .parseWmr => Sys2Proof.Machine.execParseWmr s
  | .loopback => Sys2Proof.Machine.execLoopback s
  | .crcByte v => Sys2Proof.Machine.execCrcByte v s
  | .crcSet v => Sys2Proof.Machine.execCrcSet v s
  | .crcRead => Sys2Proof.Machine.execCrcRead s
  | .softReset v => Sys2Proof.Machine.execSoftReset v s
  | .statusClear v => Sys2Proof.Machine.execStatusClear v s
  | .regWrite l v => Sys2Proof.Machine.execRegWrite l v s
  | .regRead l => Sys2Proof.Machine.execRegRead l s

end Sys2Proof.Machine
end

