-- ==== Sys2Proof/Machine/Step.lean ====
section
/-! DEFINITION. One step: the block performs the host's next access to completion (R66, R67), or the power-on reset that
stands next. With nothing pending it stays as it is: "The block's state changes only through host accesses" (R67). -/

namespace Sys2Proof.Machine

/-- One access: taken from the stream, decoded, performed. `response` shows what this access returned. -/
def performAccess (a : BusAccess) (rest : List HostEvent) (s : State) : Host.Outcome State Fault Refusal :=
  match decode s.base a with
  | .ok i => exec i (accept rest s)
  | .error r => answerReject r (accept rest s)

/-- One step of the block. -/
def step (s : State) : Host.Outcome State Fault Refusal :=
  match s.pending with
  | [] => .next s
  | .powerOn :: rest => .next (powerOnReset { s with pending := rest })
  | .access a :: rest => performAccess a rest s

/-- `s` with the access of an opcode-table word standing next in the host's stream (notes/assumptions/1.md). -/
def State.withFetchWord (s : State) (nbits w : Nat) : State :=
  { s with pending := .access (tableAccess s.base nbits w) :: s.pending }

end Sys2Proof.Machine
end

