-- ==== Sys2Proof/Safety.lean ====
section
/-! DEFINITION. The terms that claims are stated in: the invariant of the block, the kinds of instruction, and what it
means that a buffer holds a frame or that a request has been built. -/

namespace Sys2Proof.Machine

/-- Every entry below `n` has a value. -/
def Filled {w : Nat} (m : Memory w) (n : Nat) : Prop := ∀ i, i < n → (m.read i).isSome

/-- What the fields of STATUS say of one another: EXC is 0 but for MODBUS_EXCEPTION (R31), COIL0 and RCNT are 0 but for OK
(R30, R32), RCNT is at most 250 (R27), TRAIL is 0 where no PARSE passed its length check (R29), and NONE stands only while
no command has completed since a reset, so with STICKY = 0 (R28, R33). -/
structure Status.Legal (st : Status) : Prop where
  exc : st.result ≠ .modbusException → st.exc = 0#8
  coil0 : st.result ≠ .ok → st.coil0 = false
  rcnt : st.result ≠ .ok → st.rcnt = 0#8
  rcntBound : st.rcnt.toNat ≤ 250
  trail : st.result ∈ [.none, .badCommand, .badArgument, .invalidResponse] → st.trail = false
  none : st.result = .none → st.sticky = false

/-- The invariant: the four buffers are canonical, STATUS is legal, the window is aligned (R63), TX_LEN counts entries of
TX_BUF that a BUILD wrote (R40, R43), RDATA has no entry at all or all of them (R46, R178), and it has them where RCNT
counts any (R32). -/
structure State.Inv (s : State) : Prop where
  txWf : s.txBuf.wf
  rxWf : s.rxBuf.wf
  wdataWf : s.wdata.wf
  rdataWf : s.rdata.wf
  status : s.status.Legal
  base : s.base % 0x2000 = 0
  txLen : s.txLen.toNat ≤ 255
  txFilled : Filled s.txBuf s.txLen.toNat
  rdataWhole : s.rdata = [] ∨ Filled s.rdata 256
  rcntFilled : Filled s.rdata s.status.rcnt.toNat

/-- The sixteen commands of R81, CMD writes; the other instructions are register accesses (R84) and no commands (R27). -/
def isCommand : Instr → Bool
  | .crcInit | .loopback => true
  | .buildRc | .buildRdi | .buildRhr | .buildRir | .buildWsc | .buildWsr | .buildWmr => true
  | .parseRc | .parseRdi | .parseRhr | .parseRir | .parseWsc | .parseWsr | .parseWmr => true
  | .crcByte _ | .crcSet _ | .crcRead | .softReset _ | .statusClear _ | .regWrite _ _ | .regRead _ => false

/-- The legal command words with their instructions (R81). -/
def commandWords : List (BusWord × Instr) :=
  [(0x00000001#32, .crcInit), (0x00000110#32, .buildRc), (0x00000210#32, .buildRdi), (0x00000310#32, .buildRhr),
   (0x00000410#32, .buildRir), (0x00000510#32, .buildWsc), (0x00000610#32, .buildWsr), (0x00001010#32, .buildWmr),
   (0x00000120#32, .parseRc), (0x00000220#32, .parseRdi), (0x00000320#32, .parseRhr), (0x00000420#32, .parseRir),
   (0x00000520#32, .parseWsc), (0x00000620#32, .parseWsr), (0x00001020#32, .parseWmr), (0x00000030#32, .loopback)]

/-- The same outcome with its next state changed by `g`. -/
def mapNext (g : State → State) : Host.Outcome State Fault Refusal → Host.Outcome State Fault Refusal
  | .next t => .next (g t)
  | .fault f => .fault f
  | .refused r => .refused r

/-- The accesses that put well-formed instructions on the bus of a block placed at `base`, in order. -/
def accessesOf (base : Nat) (is : List Instr) : List HostEvent := is.map (fun i => .access (encode base i))

/-- The instruction is none of CRC_INIT, CRC_SET and SOFT_RESET, the three that break a CRC stream (R263). -/
def keepsCrcStream : Instr → Bool
  | .crcInit | .crcSet _ | .softReset _ => false
  | _ => true

/-- The bytes that a sequence of instructions feeds into the accumulator, in order (R112). -/
def fedBytes : List Instr → List Byte
  | [] => []
  | .crcByte v :: is => v.setWidth 8 :: fedBytes is
  | _ :: is => fedBytes is

/-- The bytes of a word in wire order by their values, high byte first (R71). -/
def bigEndian (w : Word) : List Byte := [BitVec.ofNat 8 (w.toNat / 256), BitVec.ofNat 8 (w.toNat % 256)]

/-- The bytes of a CRC in wire order by their values, low byte first (R71). -/
def crcTrailer (c : Word) : List Byte := [BitVec.ofNat 8 (c.toNat % 256), BitVec.ofNat 8 (c.toNat / 256)]

/-- The first entries of the buffer are the bytes of `f`, in order. -/
def HoldsFrame (m : Memory 8) (f : List Byte) : Prop := ∀ i, i < f.length → m.read i = f[i]?

/-- STATUS after a command that ends with OK and no PARSE: the other fields 0, STICKY kept (R222). -/
def okStatus (s : State) : Status := ⟨.ok, false, false, 0#8, 0#8, s.status.sticky⟩

/-- STATUS after a command that ends with an error (R222). -/
def errorStatus (code : ResultCode) (trail : Bool) (exc : Byte) : Status := ⟨code, trail, false, exc, 0#8, true⟩

/-- `t` is `s` after a successful BUILD of the request whose bytes before the CRC are `body` (R130): TX_BUF begins with
`body` and its CRC, low byte first, and keeps its other entries; TX_LEN is the frame's length; CRC_CHK is {c, c}; STATUS is
OK; everything else is as in `s`. -/
structure BuiltRequest (body : List Byte) (s t : State) : Prop where
  frame : HoldsFrame t.txBuf (body ++ crcTrailer (crc16 body))
  beyond : ∀ i, body.length + 2 ≤ i → t.txBuf.read i = s.txBuf.read i
  txLen : t.txLen.toNat = body.length + 2
  crcChk : t.crcChk = crc16 body ++ crc16 body
  status : t.status = okStatus s
  rest : t = { s with txBuf := t.txBuf, txLen := t.txLen, crcChk := t.crcChk, status := t.status }

/-- The frame length `F` that the received bytes give (R93, R163): 5 where bit 7 of byte 1 is set, else 8 for a write
function, else 5 and the value of byte 2. The bytes it rests on have values. -/
def FrameLength (fn : Fn) (rx : Memory 8) (len : Nat) : Prop :=
  ∃ r1 : Byte, rx.read 1 = some r1 ∧
    ((0x80 ≤ r1.toNat ∧ len = 5) ∨
      (r1.toNat < 0x80 ∧ isRead fn = false ∧ len = 8) ∨
      (r1.toNat < 0x80 ∧ isRead fn = true ∧ ∃ r2 : Byte, rx.read 2 = some r2 ∧ len = 5 + r2.toNat))

/-- RX_BUF begins with the bytes of `f`, which are as many as the frame length, and RX_LEN covers them and stays within
RX_BUF. -/
structure Received (fn : Fn) (f : List Byte) (s : State) : Prop where
  bytes : HoldsFrame s.rxBuf f
  length : FrameLength fn s.rxBuf f.length
  covered : f.length ≤ s.rxLen.toNat
  within : s.rxLen.toNat ≤ 256

/-- `count_ok(fn, N)` of R161 by its numbers: COUNT is in the range of a read function, or `fn` is a write. -/
def CountInRange (fn : Fn) (n : Word) : Prop :=
  match fn with
  | .rc | .rdi => 1 ≤ n.toNat ∧ n.toNat ≤ 2000
  | .rhr | .rir => 1 ≤ n.toNat ∧ n.toNat ≤ 125
  | .wsc | .wsr | .wmr => True

/-- The expected byte count by its numbers: twice COUNT for registers, and the smallest `q` with `8 * q ≥ COUNT` for coils
and inputs (R170); a write response has none. -/
def byteCountFor (fn : Fn) (n : Word) : Nat :=
  match fn with
  | .rc | .rdi => if n.toNat % 8 = 0 then n.toNat / 8 else n.toNat / 8 + 1
  | .rhr | .rir => 2 * n.toNat
  | .wsc | .wsr | .wmr => 0

/-- `t` is `s` after a successful PARSE that wrote the values `ws` (R171 to R178): RDATA is `ws` and then 0 up to entry
255, RCNT counts `ws`, CRC_CHK is {c, c}, and everything else is as in `s` (R179). -/
structure Delivered (ws : List Word) (trail coil0 : Bool) (c : Word) (s t : State) : Prop where
  values : ∀ j, j < ws.length → t.rdata.read j = ws[j]?
  zeros : ∀ j, ws.length ≤ j → j < 256 → t.rdata.read j = some 0#16
  status : t.status = ⟨.ok, trail, coil0, 0#8, BitVec.ofNat 8 ws.length, s.status.sticky⟩
  crcChk : t.crcChk = c ++ c
  rest : t = { s with rdata := t.rdata, crcChk := t.crcChk, status := t.status }

end Sys2Proof.Machine
end

