-- ==== Sys2Proof/Certificates/Slice0/Obligations.lean ====
section
/-! DEFINITION. The statements about the block, from the numbered rules of spec/. OBLIGATIONS.json lists them with the
rules they formalise. -/

open Sys2Proof Sys2Proof.Machine

/-! ### Encoding -/

/-- A few words and accesses, written out from R81 and R84, decode to the instructions they stand for; and at the offset that
R22 gives each register, every read and every write is the instruction that R82, R84 and R204 give it (CTRL and STATUS writes by their offset alone:
notes/assumptions/6.md). -/
def Obligations.ReferenceWordsDecode : Prop :=
  (∀ base : Nat,
    decode base (busWrite base 0x008 0x00000001#32) = .ok .crcInit ∧
    decode base (busWrite base 0x008 0x00000310#32) = .ok .buildRhr ∧
    decode base (busWrite base 0x008 0x00001020#32) = .ok .parseWmr ∧
    decode base (busWrite base 0x008 0x00000030#32) = .ok .loopback ∧
    decode base (busWrite base 0x014 0xFFFFFF01#32) = .ok (.crcByte 0xFFFFFF01#32) ∧
    decode base (busRead base 0x010) = .ok .crcRead ∧
    decode base (busWrite base 0x004 0x00000001#32) = .ok (.softReset 0x00000001#32) ∧
    decode base (busWrite base 0xC04 0x00000102#32) = .ok (.regWrite (.wdata 1) 0x00000102#32) ∧
    decode base (busRead base 0x13FC) = .ok (.regRead (.plain (.rdata 255)))) ∧
  (∀ base : Nat,
    decode base (busRead base 0x000) = .ok (.regRead (.plain .id)) ∧
    decode base (busRead base 0x004) = .ok (.regRead .ctrl) ∧
    decode base (busRead base 0x008) = .ok (.regRead .cmd) ∧
    decode base (busRead base 0x00C) = .ok (.regRead .status) ∧
    decode base (busRead base 0x010) = .ok .crcRead ∧
    decode base (busRead base 0x014) = .ok (.regRead .crcData) ∧
    decode base (busRead base 0x018) = .ok (.regRead (.plain .slaveAddr)) ∧
    decode base (busRead base 0x01C) = .ok (.regRead (.plain .startAddr)) ∧
    decode base (busRead base 0x020) = .ok (.regRead (.plain .count)) ∧
    decode base (busRead base 0x024) = .ok (.regRead (.plain .value)) ∧
    decode base (busRead base 0x028) = .ok (.regRead (.plain .txLen)) ∧
    decode base (busRead base 0x02C) = .ok (.regRead (.plain .rxLen)) ∧
    decode base (busRead base 0x030) = .ok (.regRead (.plain .crcChk))) ∧
  (∀ (base : Nat) (v : BusWord),
    decode base (busWrite base 0x000 v) = .ok (.regWrite .id v) ∧
    decode base (busWrite base 0x004 v) = .ok (.softReset v) ∧
    decode base (busWrite base 0x008 v) = (match decodeCmd v with
      | some i => .ok i
      | none => .error (.illegalCommand v)) ∧
    decode base (busWrite base 0x00C v) = .ok (.statusClear v) ∧
    decode base (busWrite base 0x010 v) = .ok (.crcSet v) ∧
    decode base (busWrite base 0x014 v) = .ok (.crcByte v) ∧
    decode base (busWrite base 0x018 v) = .ok (.regWrite .slaveAddr v) ∧
    decode base (busWrite base 0x01C v) = .ok (.regWrite .startAddr v) ∧
    decode base (busWrite base 0x020 v) = .ok (.regWrite .count v) ∧
    decode base (busWrite base 0x024 v) = .ok (.regWrite .value v) ∧
    decode base (busWrite base 0x028 v) = .ok (.regWrite .txLen v) ∧
    decode base (busWrite base 0x02C v) = .ok (.regWrite .rxLen v) ∧
    decode base (busWrite base 0x030 v) = .ok (.regWrite .crcChk v))

/-- R81: the legal command words are exactly the sixteen listed, each for its command. -/
def Obligations.CommandWordsAreExactlyTheSixteen : Prop :=
  ∀ (v : BusWord) (i : Instr), decodeCmd v = some i ↔ (v, i) ∈ commandWords

/-- Every well-formed instruction, with every operand, is what its own access decodes to, wherever the window stands. -/
def Obligations.EncodedInstructionDecodesToItself : Prop :=
  ∀ (base : Nat) (i : Instr), i.wf = true → decode base (encode base i) = .ok i

/-- The other direction: an access that decodes is the access of the well-formed instruction it decodes to, but for the
data lines of a read, which carry nothing. -/
def Obligations.DecodedAccessIsTheOneEncoded : Prop :=
  ∀ (base : Nat) (a : BusAccess) (i : Instr), decode base a = .ok i →
    i.wf = true ∧ encode base i = { a with data := if a.dir = .read then 0#32 else a.data }

/-- R64: every buffer offset names its entry, and in a hole a read returns 0 and a write is ignored. -/
def Obligations.WindowOffsetsNameEntriesAndHoles : Prop :=
  (∀ (base : Nat) (i : Fin 256) (v : BusWord),
    (decode base (busRead base (0x400 + 4 * i.val)) = .ok (.regRead (.plain (.txBuf i))) ∧
      decode base (busWrite base (0x400 + 4 * i.val) v) = .ok (.regWrite (.txBuf i) v)) ∧
    (decode base (busRead base (0x800 + 4 * i.val)) = .ok (.regRead (.plain (.rxBuf i))) ∧
      decode base (busWrite base (0x800 + 4 * i.val) v) = .ok (.regWrite (.rxBuf i) v)) ∧
    (decode base (busRead base (0xC00 + 4 * i.val)) = .ok (.regRead (.plain (.wdata i))) ∧
      decode base (busWrite base (0xC00 + 4 * i.val) v) = .ok (.regWrite (.wdata i) v)) ∧
    (decode base (busRead base (0x1000 + 4 * i.val)) = .ok (.regRead (.plain (.rdata i))) ∧
      decode base (busWrite base (0x1000 + 4 * i.val) v) = .ok (.regWrite (.rdata i) v))) ∧
  (∀ (s : State) (off : Nat) (v : BusWord) (rest : List HostEvent), off % 4 = 0 →
    (0x034 ≤ off ∧ off ≤ 0x3FC) ∨ (0x1400 ≤ off ∧ off ≤ 0x1FFC) →
    (s.pending = .access (busRead s.base off) :: rest →
      step s = .next { s with pending := rest, response := some 0#32 }) ∧
    (s.pending = .access (busWrite s.base off v) :: rest →
      step s = .next { s with pending := rest, response := none }))

/-! ### The step -/

/-- A step performs the instruction that the access standing next decodes to, with that access taken off the stream and
nothing returned yet; with nothing pending a step leaves the state as it is, since "The block's state changes only through
host accesses" (R67). The wrapper is the model's (notes/assumptions/1.md, 2.md and 10.md). -/
def Obligations.StepRunsTheDecodedInstruction : Prop :=
  (∀ (s : State) (a : BusAccess) (rest : List HostEvent) (i : Instr),
    s.pending = .access a :: rest → decode s.base a = .ok i →
    step s = exec i { s with pending := rest, response := none }) ∧
  (∀ s : State, s.pending = [] → step s = .next s)

/-- R206, R83: a CMD write of a value that is none of the sixteen ends with BAD_COMMAND and changes nothing but STATUS. -/
def Obligations.IllegalCommandWordRaisesBadCommand : Prop :=
  ∀ (s : State) (v : BusWord) (rest : List HostEvent),
    s.pending = .access (busWrite s.base 0x008 v) :: rest → (∀ i, (v, i) ∉ commandWords) →
    step s = .next { s with pending := rest, response := none, status := errorStatus .badCommand false 0#8 }

/-- R62: an access that reaches the block is refused exactly when it is no naturally aligned single 32-bit access. The
refusal's names, and what "reaches" says of an access that straddles the window's edge, are the model's
(notes/assumptions/8.md and 9.md), and so is which addresses a burst covers (notes/assumptions/20.md). -/
def Obligations.UndefinedAccessesAreRefused : Prop :=
  ∀ (s : State) (a : BusAccess) (rest : List HostEvent), s.base % 0x2000 = 0 →
    s.pending = .access a :: rest →
    a.addr < s.base + 0x2000 → s.base < a.addr + a.span →
    ((∃ r, step s = .refused r) ↔ (a.width ≠ .word ∨ a.kind ≠ .single ∨ a.addr % 4 ≠ 0))

/-- R63: an access all of whose bytes lie outside the window does not reach the block. Which addresses a burst covers is the
model's choice (notes/assumptions/20.md), and so is that a step takes the access off the stream (notes/assumptions/9.md). -/
def Obligations.AccessOutsideTheWindowHasNoEffect : Prop :=
  ∀ (s : State) (a : BusAccess) (rest : List HostEvent), s.pending = .access a :: rest →
    (a.addr + a.span ≤ s.base ∨ s.base + 0x2000 ≤ a.addr) →
    step s = .next { s with pending := rest, response := none }

/-- R60 at the step: a read access changes nothing but what the host gets, and a step leaves a value in `response` exactly
when the access it performed is a read that reaches the block (`response`: notes/assumptions/2.md; the addresses of a
burst: 20.md). -/
def Obligations.ReadAccessesHaveNoSideEffect : Prop :=
  ∀ (s t : State) (a : BusAccess) (rest : List HostEvent), s.pending = .access a :: rest → step s = .next t →
    (a.dir = .read → t = { s with pending := rest, response := t.response }) ∧
    (t.response.isSome = true ↔ a.dir = .read ∧ a.addr < s.base + 0x2000 ∧ s.base < a.addr + a.span)

/-! ### Reset and the invariant -/

/-- R250: after power-on reset every register reads its reset value and no buffer entry has a value. That the reset keeps
BASE and the events that have yet to arrive (`t.base = s.base`, `t.pending = rest`) is the model's choice, no rule of the
spec (notes/assumptions/15.md). -/
def Obligations.PowerOnResetValues : Prop :=
  ∀ (s : State) (rest : List HostEvent), s.pending = .powerOn :: rest →
    ∃ t, step s = .next t ∧ t.base = s.base ∧ t.pending = rest ∧
      readLoc t (.plain .id) = .ok 0x4D425231#32 ∧ readLoc t .crcAcc = .ok 0x0000FFFF#32 ∧
      (∀ l ∈ [.ctrl, .cmd, .status, .crcData, .plain .slaveAddr, .plain .startAddr, .plain .count, .plain .value,
        .plain .txLen, .plain .rxLen, .plain .crcChk], readLoc t l = .ok 0#32) ∧
      t.status = ⟨.none, false, false, 0#8, 0#8, false⟩ ∧
      (∀ i, t.txBuf.read i = none ∧ t.rxBuf.read i = none ∧ t.wdata.read i = none ∧ t.rdata.read i = none)

/-- R251, R202: SOFT_RESET gives every register its power-on value and keeps the buffers; with bit 0 clear it has no
effect. -/
def Obligations.SoftResetResetsRegistersAndKeepsBuffers : Prop :=
  ∀ (s : State) (v : BusWord),
    (v.toNat % 2 = 1 → exec (.softReset v) s = .next
      { State.resetAt s.base with
        txBuf := s.txBuf, rxBuf := s.rxBuf, wdata := s.wdata, rdata := s.rdata
        pending := s.pending, response := s.response }) ∧
    (v.toNat % 2 = 0 → exec (.softReset v) s = .next s)

/-- The reset state meets the invariant wherever the platform places the window. -/
def Obligations.ResetMeetsTheInvariant : Prop :=
  ∀ base : Nat, base % 0x2000 = 0 → (State.resetAt base).Inv

/-- Every step keeps the invariant: canonical buffers, a legal STATUS, TX_LEN counting built entries, RDATA whole. -/
def Obligations.EveryStepKeepsTheInvariant : Prop :=
  ∀ s t : State, s.Inv → step s = .next t → t.Inv

/-! ### The CRC -/

/-- R110: `crc16` is the sum over the bytes of §4.1, here on natural numbers: XOR the byte in, then eight times halve and,
where the number was odd, XOR 0xA001. -/
def Obligations.CrcIsTheRuleOnNumbers : Prop :=
  ∀ bs : List Byte, (crc16 bs).toNat =
    bs.foldl (fun acc b => (fun x => if x % 2 = 1 then (x / 2) ^^^ 0xA001 else x / 2)^[8] (acc ^^^ b.toNat)) 0xFFFF

/-- R118: a message followed by its CRC, low byte first, has CRC 0. -/
def Obligations.FrameResidueIsZero : Prop :=
  ∀ m : List Byte, crc16 (m ++ crcTrailer (crc16 m)) = 0#16

/-- R111: CRC_INIT sets the accumulator to 0xFFFF and ends with OK. -/
def Obligations.CrcInitResult : Prop :=
  ∀ s : State, exec .crcInit s = .next { s with crcAcc := 0xFFFF#16, status := okStatus s }

/-- R112, R113, R114: the three accumulator accesses. CRC_BYTE is one `crc_step` of the low byte, CRC_SET loads the low
word, CRC_READ returns the accumulator; none writes STATUS or anything else. -/
def Obligations.CrcAccessResults : Prop :=
  ∀ (s : State) (v : BusWord),
    (∃ t, exec (.crcByte v) s = .next t ∧ t = { s with crcAcc := t.crcAcc } ∧
      t.crcAcc = crcStep s.crcAcc (BitVec.ofNat 8 (v.toNat % 256))) ∧
    (∃ t, exec (.crcSet v) s = .next t ∧ t = { s with crcAcc := t.crcAcc } ∧ t.crcAcc.toNat = v.toNat % 65536) ∧
    (∃ t, exec .crcRead s = .next t ∧ t = { s with response := t.response } ∧
      t.response.map BitVec.toNat = some s.crcAcc.toNat)

/-- R115: from 0xFFFF, a stream of CRC_BYTE writes leaves `crc16` of the bytes in the accumulator. -/
def Obligations.CrcByteStreamComputesCrc16 : Prop :=
  ∀ (s : State) (bs : List Byte) (rest : List HostEvent), s.crcAcc = 0xFFFF#16 →
    s.pending = accessesOf s.base (bs.map (fun b => Instr.crcByte (b.setWidth 32))) ++ rest →
    ∃ t, Sys2Proof.core.run bs.length s = .next t ∧
      t = { s with crcAcc := crc16 bs, pending := rest, response := t.response }

/-- R115, R263: a stream that also holds other well-formed instructions, none of them CRC_INIT, CRC_SET or SOFT_RESET
(whatever its bit 0), gives the same. -/
def Obligations.CrcStreamSurvivesOtherAccesses : Prop :=
  ∀ (s t : State) (is : List Instr) (rest : List HostEvent), s.crcAcc = 0xFFFF#16 →
    (∀ i ∈ is, i.wf = true ∧ keepsCrcStream i = true) →
    s.pending = accessesOf s.base is ++ rest → Sys2Proof.core.run is.length s = .next t →
    t.crcAcc = crc16 (fedBytes is) ∧ t.pending = rest

/-- R47, R112, R115, R263, one step at a time: where the accumulator holds `crc16` of some bytes, an access leaves it so,
with the byte that a CRC_BYTE feeds appended, unless it is CRC_INIT, CRC_SET or a SOFT_RESET with its bit 0 set. An access
that is no instruction of the table, an illegal CMD word among them, feeds nothing and disturbs nothing. -/
def Obligations.EveryStepKeepsTheCrcStream : Prop :=
  ∀ (s t : State) (a : BusAccess) (rest : List HostEvent) (bs : List Byte), s.pending = .access a :: rest →
    s.crcAcc = crc16 bs → step s = .next t →
    (∀ i, decode s.base a = .ok i →
      i ≠ .crcInit ∧ (∀ v, i ≠ .crcSet v) ∧ (∀ v, i = .softReset v → v.getLsbD 0 = false)) →
    t.crcAcc = crc16 (bs ++ (match decode s.base a with
      | .ok i => fedBytes [i]
      | .error _ => []))

/-- R47: no BUILD, PARSE or LOOPBACK reads or writes CRC_ACC: with another accumulator it does the same, and the
accumulator stays. -/
def Obligations.FrameCommandsIgnoreTheAccumulator : Prop :=
  ∀ (i : Instr) (s : State) (x : Word), isCommand i = true → i ≠ .crcInit →
    exec i { s with crcAcc := x } = mapNext (fun t => { t with crcAcc := x }) (exec i s)

/-! ### BUILD -/

/-- R131 to R134: the four read requests, for every COUNT in range; out of range, BAD_ARGUMENT and nothing built. -/
def Obligations.BuildReadRequests : Prop :=
  ∀ row ∈ [(Instr.buildRc, 0x01#8, 2000), (Instr.buildRdi, 0x02#8, 2000), (Instr.buildRhr, 0x03#8, 125),
      (Instr.buildRir, 0x04#8, 125)],
    ∀ s : State,
      (1 ≤ s.count.toNat → s.count.toNat ≤ row.2.2 → ∃ t, exec row.1 s = .next t ∧
        BuiltRequest ([s.slaveAddr, row.2.1] ++ bigEndian s.startAddr ++ bigEndian s.count) s t) ∧
      (s.count.toNat < 1 ∨ row.2.2 < s.count.toNat →
        exec row.1 s = .next { s with status := errorStatus .badArgument false 0#8 })

/-- R135, R136: the two write-single requests, whatever COUNT holds; a coil value that is neither ON nor OFF is
BAD_ARGUMENT. -/
def Obligations.BuildWriteSingleRequests : Prop :=
  ∀ row ∈ [(Instr.buildWsc, 0x05#8), (Instr.buildWsr, 0x06#8)],
    ∀ s : State,
      ((row.1 = .buildWsc → s.value = 0xFF00#16 ∨ s.value = 0x0000#16) → ∃ t, exec row.1 s = .next t ∧
        BuiltRequest ([s.slaveAddr, row.2] ++ bigEndian s.startAddr ++ bigEndian s.value) s t) ∧
      (row.1 = .buildWsc → s.value ≠ 0xFF00#16 → s.value ≠ 0x0000#16 →
        exec row.1 s = .next { s with status := errorStatus .badArgument false 0#8 })

/-- R137: the write-multiple request, from the words WDATA[0..N-1]; a COUNT out of range is BAD_ARGUMENT, and a word
without a value among them is a fault of the model. -/
def Obligations.BuildWriteMultipleRequest : Prop :=
  ∀ s : State,
    (∀ ws : List Word, ws.length = s.count.toNat → 1 ≤ ws.length → ws.length ≤ 123 →
      (∀ j, j < ws.length → s.wdata.read j = ws[j]?) →
      ∃ t, exec .buildWmr s = .next t ∧
        BuiltRequest ([s.slaveAddr, 0x10#8] ++ bigEndian s.startAddr ++ bigEndian s.count ++
          [BitVec.ofNat 8 (2 * ws.length)] ++ ws.flatMap bigEndian) s t) ∧
    (s.count.toNat < 1 ∨ 123 < s.count.toNat →
      exec .buildWmr s = .next { s with status := errorStatus .badArgument false 0#8 }) ∧
    (∀ j, 1 ≤ s.count.toNat → s.count.toNat ≤ 123 → j < s.count.toNat → s.wdata.read j = none →
      ∃ k, exec .buildWmr s = .fault (.unwrittenEntry .wdata k))

/-- R138, R139: a BUILD whose arguments are out of range writes only STATUS, with BAD_ARGUMENT and STICKY, and BAD_ARGUMENT
comes of nothing else. -/
def Obligations.BuildBadArgumentExactlyOutOfRange : Prop :=
  ∀ (fn : Fn) (s : State),
    let bad : Prop := match fn with
      | .rc | .rdi => s.count.toNat < 1 ∨ 2000 < s.count.toNat
      | .rhr | .rir => s.count.toNat < 1 ∨ 125 < s.count.toNat
      | .wsc => s.value.toNat ≠ 0xFF00 ∧ s.value.toNat ≠ 0x0000
      | .wsr => False
      | .wmr => s.count.toNat < 1 ∨ 123 < s.count.toNat
    (bad → exec (buildOf fn) s = .next { s with status := errorStatus .badArgument false 0#8 }) ∧
    (¬ bad → ∀ t, exec (buildOf fn) s = .next t → t.status.result = .ok)

/-! ### PARSE -/

/-- R161: RX_LEN above 256, or a COUNT out of range for a read, is BAD_ARGUMENT; CRC_CHK is 0 and nothing else changes.
Nothing else is BAD_ARGUMENT, so a write function never is for its COUNT. -/
def Obligations.ParseArgumentErrors : Prop :=
  ∀ (fn : Fn) (s : State),
    (256 < s.rxLen.toNat ∨ ¬ CountInRange fn s.count →
      exec (parseOf fn) s = .next { s with crcChk := 0#32, status := errorStatus .badArgument false 0#8 }) ∧
    (∀ t, s.rxLen.toNat ≤ 256 → CountInRange fn s.count → exec (parseOf fn) s = .next t →
      t.status.result ≠ .badArgument)

/-- R162, R163: a response shorter than 5 bytes, or shorter than the frame length its own bytes give, is INVALID_RESPONSE
with CRC_CHK 0. -/
def Obligations.ParseShortResponses : Prop :=
  ∀ (fn : Fn) (s : State), s.rxLen.toNat ≤ 256 → CountInRange fn s.count →
    s.rxLen.toNat < 5 ∨ (∃ len, FrameLength fn s.rxBuf len ∧ s.rxLen.toNat < len) →
    exec (parseOf fn) s = .next { s with crcChk := 0#32, status := errorStatus .invalidResponse false 0#8 }

/-- R164 to R170 in the order of R160 and R225: on a received frame, PARSE records {received, computed} in CRC_CHK and reports the
first check that fails, CRC, address, exception bit, function, byte count, with the exception code; a failed PARSE changes
nothing but CRC_CHK and STATUS. -/
def Obligations.ParseReportsTheFirstFailingCheck : Prop :=
  ∀ (fn : Fn) (f : List Byte) (s : State), Received fn f s → CountInRange fn s.count →
    let computed := crc16 (f.take (f.length - 2))
    let received := byteAt f (f.length - 1) ++ byteAt f (f.length - 2)
    ∃ t, exec (parseOf fn) s = .next t ∧
      t.crcChk = received ++ computed ∧
      t.status.trail = decide (f.length < s.rxLen.toNat) ∧
      t.status.result =
        (if computed ≠ received then .crcMismatch
         else if byteAt f 0 ≠ s.slaveAddr then .addressMismatch
         else if 0x80 ≤ (byteAt f 1).toNat then .modbusException
         else if byteAt f 1 ≠ fn.code then .functionMismatch
         else if isRead fn ∧ (byteAt f 2).toNat ≠ byteCountFor fn s.count then .bytecountMismatch
         else .ok) ∧
      t.status.exc = (if t.status.result = .modbusException then byteAt f 2 else 0#8) ∧
      (t.status.result ≠ .ok →
        t = { s with crcChk := t.crcChk, status := errorStatus t.status.result t.status.trail t.status.exc })

/-- R173, R174: a good register-read response delivers its big-endian words; bytes after the frame only set TRAIL. -/
def Obligations.ParseRegisterResponses : Prop :=
  ∀ row ∈ [(Instr.parseRhr, 0x03#8), (Instr.parseRir, 0x04#8)],
    ∀ (s : State) (ws : List Word), ws.length = s.count.toNat → 1 ≤ ws.length → ws.length ≤ 125 →
      let body := [s.slaveAddr, row.2, BitVec.ofNat 8 (2 * ws.length)] ++ ws.flatMap bigEndian
      HoldsFrame s.rxBuf (body ++ crcTrailer (crc16 body)) → body.length + 2 ≤ s.rxLen.toNat → s.rxLen.toNat ≤ 256 →
      ∃ t, exec row.1 s = .next t ∧
        Delivered ws (decide (body.length + 2 < s.rxLen.toNat)) false (crc16 body) s t

/-- R171, R172: a good coil or input response delivers its data bytes, and COIL0 is bit 0 of the first. -/
def Obligations.ParseBitResponses : Prop :=
  ∀ row ∈ [(Instr.parseRc, 0x01#8), (Instr.parseRdi, 0x02#8)],
    ∀ (s : State) (b : Byte) (bs : List Byte), 1 ≤ s.count.toNat → s.count.toNat ≤ 2000 →
      8 * bs.length < s.count.toNat → s.count.toNat ≤ 8 * (bs.length + 1) →
      let body := [s.slaveAddr, row.2, BitVec.ofNat 8 (bs.length + 1)] ++ b :: bs
      HoldsFrame s.rxBuf (body ++ crcTrailer (crc16 body)) → body.length + 2 ≤ s.rxLen.toNat → s.rxLen.toNat ≤ 256 →
      ∃ t, exec row.1 s = .next t ∧
        Delivered ((b :: bs).map (fun x => BitVec.ofNat 16 x.toNat)) (decide (body.length + 2 < s.rxLen.toNat))
          (decide (b.toNat % 2 = 1)) (crc16 body) s t

/-- R175, R176, R177: a good write response delivers the echoed address and the echoed value or quantity, whatever they
are, and COUNT is not read. -/
def Obligations.ParseWriteResponses : Prop :=
  ∀ row ∈ [(Instr.parseWsc, 0x05#8), (Instr.parseWsr, 0x06#8), (Instr.parseWmr, 0x10#8)],
    ∀ (s : State) (w1 w2 : Word),
      let body := [s.slaveAddr, row.2] ++ bigEndian w1 ++ bigEndian w2
      HoldsFrame s.rxBuf (body ++ crcTrailer (crc16 body)) → 8 ≤ s.rxLen.toNat → s.rxLen.toNat ≤ 256 →
      ∃ t, exec row.1 s = .next t ∧
        Delivered [w1, w2] (decide (8 < s.rxLen.toNat)) false (crc16 body) s t

/-- R179, R178: a PARSE writes only STATUS, CRC_CHK and, on success, RDATA, and a second PARSE of the same response by the
same function then changes nothing at all. -/
def Obligations.ParseFrameAndRepetition : Prop :=
  ∀ (fn : Fn) (s t : State), exec (parseOf fn) s = .next t →
    t = { s with status := t.status, crcChk := t.crcChk, rdata := t.rdata } ∧
    (t.status.result ≠ .ok → t.rdata = s.rdata) ∧
    exec (parseOf fn) t = .next t

/-- R260: what a PARSE reports rests on RX_BUF, RX_LEN, SLAVE_ADDR and COUNT as they stand at the CMD write, and on nothing
else; STICKY alone also keeps its past. -/
def Obligations.ParseRestsOnItsOperandsAlone : Prop :=
  ∀ (fn : Fn) (s s' t : State), s'.rxBuf = s.rxBuf → s'.rxLen = s.rxLen → s'.slaveAddr = s.slaveAddr →
    s'.count = s.count → exec (parseOf fn) s = .next t →
    ∃ t', exec (parseOf fn) s' = .next t' ∧ t'.crcChk = t.crcChk ∧
      t'.status = { t.status with sticky := t'.status.sticky } ∧
      (t.status.result = .ok → t'.rdata = t.rdata)

/-! ### Control and register access -/

/-- R200: LOOPBACK copies TX_BUF[0..TX_LEN-1] to RX_BUF and TX_LEN to RX_LEN, and changes nothing else but STATUS. -/
def Obligations.LoopbackCopiesTheRequest : Prop :=
  ∀ (s : State) (bs : List Byte), bs.length = s.txLen.toNat → HoldsFrame s.txBuf bs →
    ∃ t, exec .loopback s = .next t ∧ HoldsFrame t.rxBuf bs ∧
      (∀ i, bs.length ≤ i → t.rxBuf.read i = s.rxBuf.read i) ∧
      t.rxLen = s.txLen ∧ t.status = okStatus s ∧
      t = { s with rxBuf := t.rxBuf, rxLen := t.rxLen, status := t.status }

/-- From every state of the invariant LOOPBACK completes: no step leaves TX_LEN counting an entry without a value. -/
def Obligations.LoopbackCompletesUnderTheInvariant : Prop :=
  ∀ s : State, s.Inv → ∃ t, exec .loopback s = .next t ∧ t.rxLen = s.txLen

/-- R200, the round trip of §8: a write-single request built, looped back and parsed as its own response ends with OK and
RDATA[0], RDATA[1] hold the target address and the value. -/
def Obligations.WriteSingleRoundTrip : Prop :=
  ∀ row ∈ [(Instr.buildWsc, Instr.parseWsc), (Instr.buildWsr, Instr.parseWsr)],
    ∀ (s : State) (rest : List HostEvent),
      (row.1 = .buildWsc → s.value = 0xFF00#16 ∨ s.value = 0x0000#16) →
      s.pending = accessesOf s.base [row.1, .loopback, row.2] ++ rest →
      ∃ t, Sys2Proof.core.run 3 s = .next t ∧ t.pending = rest ∧
        t.status = ⟨.ok, false, false, 0#8, 2#8, s.status.sticky⟩ ∧
        t.rdata.read 0 = some s.startAddr ∧ t.rdata.read 1 = some s.value

/-- R203: STATUS_CLEAR clears STICKY where bit 31 of the value is 1 and changes nothing else. -/
def Obligations.StatusClearResult : Prop :=
  ∀ (s : State) (v : BusWord), ∃ t, exec (.statusClear v) s = .next t ∧
    t = { s with status := { s.status with sticky := t.status.sticky } } ∧
    t.status.sticky = (s.status.sticky && decide (v.toNat < 0x80000000))

/-- R204: what REG_WRITE does at every location. A parameter register takes its defined bits, a buffer entry takes its own
and no other entry changes, and a read-only location or a hole ignores the write. -/
def Obligations.RegWriteResults : Prop :=
  ∀ (s : State) (v : BusWord),
    (exec (.regWrite .slaveAddr v) s = .next { s with slaveAddr := v.setWidth 8 }) ∧
    (exec (.regWrite .startAddr v) s = .next { s with startAddr := v.setWidth 16 }) ∧
    (exec (.regWrite .count v) s = .next { s with count := v.setWidth 16 }) ∧
    (exec (.regWrite .value v) s = .next { s with value := v.setWidth 16 }) ∧
    (exec (.regWrite .rxLen v) s = .next { s with rxLen := v.setWidth 9 }) ∧
    (∀ i : Fin 256, ∃ t, exec (.regWrite (.rxBuf i) v) s = .next t ∧ t = { s with rxBuf := t.rxBuf } ∧
      ∀ k, t.rxBuf.read k = if k = i.val then some (v.setWidth 8) else s.rxBuf.read k) ∧
    (∀ j : Fin 256, ∃ t, exec (.regWrite (.wdata j) v) s = .next t ∧ t = { s with wdata := t.wdata } ∧
      ∀ k, t.wdata.read k = if k = j.val then some (v.setWidth 16) else s.wdata.read k) ∧
    (∀ l : PlainLoc, (l = .id ∨ l = .txLen ∨ l = .crcChk ∨ (∃ off, l = .hole off) ∨ (∃ i, l = .txBuf i) ∨
      (∃ j, l = .rdata j)) → exec (.regWrite l v) s = .next s)

/-- R205, R60: what REG_READ returns at every location; the block does not change. -/
def Obligations.RegReadResults : Prop :=
  ∀ s : State,
    let returns : Loc → Nat → Prop := fun l n => ∃ t, exec (.regRead l) s = .next t ∧
      t = { s with response := t.response } ∧ t.response.map BitVec.toNat = some n
    returns (.plain .id) 0x4D425231 ∧ returns .ctrl 0 ∧ returns .cmd 0 ∧ returns .crcData 0 ∧
    returns .status s.status.toWord.toNat ∧ returns .crcAcc s.crcAcc.toNat ∧
    returns (.plain .slaveAddr) s.slaveAddr.toNat ∧ returns (.plain .startAddr) s.startAddr.toNat ∧
    returns (.plain .count) s.count.toNat ∧ returns (.plain .value) s.value.toNat ∧
    returns (.plain .txLen) s.txLen.toNat ∧ returns (.plain .rxLen) s.rxLen.toNat ∧
    returns (.plain .crcChk) s.crcChk.toNat ∧ (∀ off, returns (.plain (.hole off)) 0) ∧
    (∀ (i : Fin 256) (b : Byte), s.txBuf.read i.val = some b → returns (.plain (.txBuf i)) b.toNat) ∧
    (∀ (i : Fin 256) (b : Byte), s.rxBuf.read i.val = some b → returns (.plain (.rxBuf i)) b.toNat) ∧
    (∀ (j : Fin 256) (w : Word), s.wdata.read j.val = some w → returns (.plain (.wdata j)) w.toNat) ∧
    (∀ (j : Fin 256) (w : Word), s.rdata.read j.val = some w → returns (.plain (.rdata j)) w.toNat)

/-- R67: a read gives what the latest write stored, reserved bits 0. -/
def Obligations.RegisterReadsBackItsWrite : Prop :=
  ∀ (s : State) (v : BusWord) (l : PlainLoc) (width : Nat),
    ((l = .slaveAddr ∨ ∃ i, l = .rxBuf i) ∧ width = 8) ∨
      ((l = .startAddr ∨ l = .count ∨ l = .value ∨ ∃ j, l = .wdata j) ∧ width = 16) ∨ (l = .rxLen ∧ width = 9) →
    ∃ t u, exec (.regWrite l v) s = .next t ∧ exec (.regRead (.plain l)) t = .next u ∧
      u.response.map BitVec.toNat = some (v.toNat % 2 ^ width)

/-- R48: a host read of an entry without a value is a fault of the model, and so is a command that reads one: BUILD.WMR
below COUNT, LOOPBACK below TX_LEN, PARSE below the frame length its bytes give. That a PARSE without byte 1, or without
byte 2 where it needs it, faults at that index, whatever entry 0 holds, is read from the order of R160 by inference
(notes/assumptions/4.md and 18.md). -/
def Obligations.ReadingAnUnwrittenEntryFaults : Prop :=
  (∀ (s : State) (i : Fin 256),
    (s.txBuf.read i.val = none → exec (.regRead (.plain (.txBuf i))) s = .fault (.unwrittenEntry .txBuf i.val)) ∧
    (s.rxBuf.read i.val = none → exec (.regRead (.plain (.rxBuf i))) s = .fault (.unwrittenEntry .rxBuf i.val)) ∧
    (s.wdata.read i.val = none → exec (.regRead (.plain (.wdata i))) s = .fault (.unwrittenEntry .wdata i.val)) ∧
    (s.rdata.read i.val = none → exec (.regRead (.plain (.rdata i))) s = .fault (.unwrittenEntry .rdata i.val))) ∧
  (∀ (s : State) (j : Nat), 1 ≤ s.count.toNat → s.count.toNat ≤ 123 → j < s.count.toNat → s.wdata.read j = none →
    ∃ k, exec .buildWmr s = .fault (.unwrittenEntry .wdata k)) ∧
  (∀ (s : State) (i : Nat), i < s.txLen.toNat → s.txBuf.read i = none →
    ∃ k, exec .loopback s = .fault (.unwrittenEntry .txBuf k)) ∧
  (∀ (fn : Fn) (s : State), CountInRange fn s.count → 5 ≤ s.rxLen.toNat → s.rxLen.toNat ≤ 256 →
    (s.rxBuf.read 1 = none → exec (parseOf fn) s = .fault (.unwrittenEntry .rxBuf 1)) ∧
    (∀ r1 : Byte, s.rxBuf.read 1 = some r1 → r1.toNat < 0x80 → isRead fn = true → s.rxBuf.read 2 = none →
      exec (parseOf fn) s = .fault (.unwrittenEntry .rxBuf 2)) ∧
    (∀ len i : Nat, FrameLength fn s.rxBuf len → len ≤ s.rxLen.toNat → i < len → s.rxBuf.read i = none →
      ∃ k, exec (parseOf fn) s = .fault (.unwrittenEntry .rxBuf k)))

/-- No instruction is refused, and the only fault is the read of an entry without a value (R48). -/
def Obligations.OnlyUnwrittenEntriesStopAnInstruction : Prop :=
  ∀ (i : Instr) (s : State), (∃ t, exec i s = .next t) ∨
    ∃ (b : Buffer) (k : Nat), exec i s = .fault (.unwrittenEntry b k) ∧
      (match b with
        | .txBuf => s.txBuf.read k = none
        | .rxBuf => s.rxBuf.read k = none
        | .wdata => s.wdata.read k = none
        | .rdata => s.rdata.read k = none)

/-- With the invariant and every buffer entry written, every instruction completes. -/
def Obligations.EveryInstructionCompletesOnWrittenBuffers : Prop :=
  ∀ (i : Instr) (s : State), s.Inv → Filled s.txBuf 256 → Filled s.rxBuf 256 → Filled s.wdata 256 →
    Filled s.rdata 256 → ∃ t, exec i s = .next t ∧ t.Inv

/-! ### STATUS and whole-machine rules -/

/-- R27, R28: where each field stands in the word a host reads, and that the reserved bits read 0. -/
def Obligations.StatusWordLayout : Prop :=
  ∀ st : Status,
    st.toWord.toNat % 16 = (match st.result with
      | .none => 0 | .ok => 1 | .invalidResponse => 2 | .addressMismatch => 3 | .modbusException => 4
      | .functionMismatch => 5 | .bytecountMismatch => 6 | .crcMismatch => 7 | .badCommand => 8 | .badArgument => 9) ∧
    st.toWord.getLsbD 4 = st.trail ∧ st.toWord.getLsbD 5 = st.coil0 ∧
    st.toWord.toNat / 64 % 4 = 0 ∧
    st.toWord.toNat / 256 % 256 = st.exc.toNat ∧
    st.toWord.toNat / 65536 % 256 = st.rcnt.toNat ∧
    st.toWord.toNat / 16777216 % 128 = 0 ∧
    st.toWord.getLsbD 31 = st.sticky

/-- R33: a command that ends with a RESULT of 2 or more sets STICKY, no command clears it, and a step that clears it is a
power-on reset, a SOFT_RESET or a STATUS_CLEAR. -/
def Obligations.StickyIsClearedOnlyByClearOrReset : Prop :=
  (∀ (i : Instr) (s t : State), isCommand i = true → exec i s = .next t →
    t.status.sticky = (s.status.sticky || decide (t.status.result ≠ .none ∧ t.status.result ≠ .ok))) ∧
  (∀ s t : State, step s = .next t → s.status.sticky = true → t.status.sticky = false →
    ∃ rest, s.pending = .powerOn :: rest ∨
      ∃ (a : BusAccess) (v : BusWord), s.pending = .access a :: rest ∧
        ((decode s.base a = .ok (.softReset v) ∧ v.getLsbD 0 = true) ∨
          (decode s.base a = .ok (.statusClear v) ∧ v.getLsbD 31 = true)))

/-- R228: the next command overwrites RESULT, TRAIL, COIL0, EXC and RCNT whatever they were: with another STATUS it does
the same, but for the STICKY it keeps or sets. -/
def Obligations.CommandsOverwriteStatus : Prop :=
  ∀ (i : Instr) (s : State) (st : Status), isCommand i = true →
    exec i { s with status := st } =
      mapNext (fun t => { t with status := { t.status with
        sticky := st.sticky || decide (t.status.result ≠ .none ∧ t.status.result ≠ .ok) } }) (exec i s)

/-- R221: a command that ends with an error changes nothing but STATUS, and CRC_CHK where it is a PARSE. -/
def Obligations.FailedCommandsChangeOnlyStatus : Prop :=
  ∀ (i : Instr) (s t : State), isCommand i = true → exec i s = .next t → t.status.result ≠ .ok →
    t = { s with crcChk := t.crcChk, status := t.status } ∧
    ((∀ fn, i ≠ parseOf fn) → t.crcChk = s.crcChk)

/-- Who may write what, over all instructions (R34, R36 to R46): each register and buffer changes only under the
instructions its rule names. -/
def Obligations.EachRegisterHasOnlyItsWriters : Prop :=
  ∀ (i : Instr) (s t : State), exec i s = .next t → (∀ v, i ≠ .softReset v) →
    (t.crcAcc ≠ s.crcAcc → i = .crcInit ∨ (∃ v, i = .crcByte v) ∨ ∃ v, i = .crcSet v) ∧
    (t.slaveAddr ≠ s.slaveAddr → ∃ v, i = .regWrite .slaveAddr v) ∧
    (t.startAddr ≠ s.startAddr → ∃ v, i = .regWrite .startAddr v) ∧
    (t.count ≠ s.count → ∃ v, i = .regWrite .count v) ∧
    (t.value ≠ s.value → ∃ v, i = .regWrite .value v) ∧
    (t.txLen ≠ s.txLen ∨ t.txBuf ≠ s.txBuf → (∃ fn, i = buildOf fn) ∧ t.status.result = .ok) ∧
    (t.rxLen ≠ s.rxLen → i = .loopback ∨ ∃ v, i = .regWrite .rxLen v) ∧
    (t.rxBuf ≠ s.rxBuf → i = .loopback ∨ ∃ k v, i = .regWrite (.rxBuf k) v) ∧
    (t.wdata ≠ s.wdata → ∃ k v, i = .regWrite (.wdata k) v) ∧
    (t.rdata ≠ s.rdata → (∃ fn, i = parseOf fn) ∧ t.status.result = .ok) ∧
    (t.crcChk ≠ s.crcChk → (∃ fn, i = parseOf fn) ∨ ((∃ fn, i = buildOf fn) ∧ t.status.result = .ok)) ∧
    (t.status ≠ s.status → isCommand i = true ∨ ∃ v, i = .statusClear v) ∧
    t.base = s.base ∧ t.pending = s.pending
end

