-- ==== Sys2Proof/Laws/State.lean ====
section
/-! SUPPORT. One lemma per field for each named update of the state, so that no proof unfolds a record update. -/

namespace Sys2Proof.Machine

variable (s : State)

section Finish
variable (trail coil0 : Bool) (rcnt : Byte)

@[simp] theorem finish_status : (finish trail coil0 rcnt s).status = s.status.report .ok trail coil0 0#8 rcnt := rfl
@[simp] theorem finish_crcAcc : (finish trail coil0 rcnt s).crcAcc = s.crcAcc := rfl
@[simp] theorem finish_slaveAddr : (finish trail coil0 rcnt s).slaveAddr = s.slaveAddr := rfl
@[simp] theorem finish_startAddr : (finish trail coil0 rcnt s).startAddr = s.startAddr := rfl
@[simp] theorem finish_count : (finish trail coil0 rcnt s).count = s.count := rfl
@[simp] theorem finish_value : (finish trail coil0 rcnt s).value = s.value := rfl
@[simp] theorem finish_txLen : (finish trail coil0 rcnt s).txLen = s.txLen := rfl
@[simp] theorem finish_rxLen : (finish trail coil0 rcnt s).rxLen = s.rxLen := rfl
@[simp] theorem finish_crcChk : (finish trail coil0 rcnt s).crcChk = s.crcChk := rfl
@[simp] theorem finish_txBuf : (finish trail coil0 rcnt s).txBuf = s.txBuf := rfl
@[simp] theorem finish_rxBuf : (finish trail coil0 rcnt s).rxBuf = s.rxBuf := rfl
@[simp] theorem finish_wdata : (finish trail coil0 rcnt s).wdata = s.wdata := rfl
@[simp] theorem finish_rdata : (finish trail coil0 rcnt s).rdata = s.rdata := rfl
@[simp] theorem finish_base : (finish trail coil0 rcnt s).base = s.base := rfl
@[simp] theorem finish_pending : (finish trail coil0 rcnt s).pending = s.pending := rfl
@[simp] theorem finish_response : (finish trail coil0 rcnt s).response = s.response := rfl
end Finish

section Raise
variable (code : ResultCode) (trail : Bool) (exc : Byte)

@[simp] theorem raise_status : (raise code trail exc s).status = s.status.report code trail false exc 0#8 := rfl
@[simp] theorem raise_crcAcc : (raise code trail exc s).crcAcc = s.crcAcc := rfl
@[simp] theorem raise_slaveAddr : (raise code trail exc s).slaveAddr = s.slaveAddr := rfl
@[simp] theorem raise_startAddr : (raise code trail exc s).startAddr = s.startAddr := rfl
@[simp] theorem raise_count : (raise code trail exc s).count = s.count := rfl
@[simp] theorem raise_value : (raise code trail exc s).value = s.value := rfl
@[simp] theorem raise_txLen : (raise code trail exc s).txLen = s.txLen := rfl
@[simp] theorem raise_rxLen : (raise code trail exc s).rxLen = s.rxLen := rfl
@[simp] theorem raise_crcChk : (raise code trail exc s).crcChk = s.crcChk := rfl
@[simp] theorem raise_txBuf : (raise code trail exc s).txBuf = s.txBuf := rfl
@[simp] theorem raise_rxBuf : (raise code trail exc s).rxBuf = s.rxBuf := rfl
@[simp] theorem raise_wdata : (raise code trail exc s).wdata = s.wdata := rfl
@[simp] theorem raise_rdata : (raise code trail exc s).rdata = s.rdata := rfl
@[simp] theorem raise_base : (raise code trail exc s).base = s.base := rfl
@[simp] theorem raise_pending : (raise code trail exc s).pending = s.pending := rfl
@[simp] theorem raise_response : (raise code trail exc s).response = s.response := rfl
end Raise

section Accept
variable (rest : List HostEvent)

@[simp] theorem accept_status : (accept rest s).status = s.status := rfl
@[simp] theorem accept_crcAcc : (accept rest s).crcAcc = s.crcAcc := rfl
@[simp] theorem accept_slaveAddr : (accept rest s).slaveAddr = s.slaveAddr := rfl
@[simp] theorem accept_startAddr : (accept rest s).startAddr = s.startAddr := rfl
@[simp] theorem accept_count : (accept rest s).count = s.count := rfl
@[simp] theorem accept_value : (accept rest s).value = s.value := rfl
@[simp] theorem accept_txLen : (accept rest s).txLen = s.txLen := rfl
@[simp] theorem accept_rxLen : (accept rest s).rxLen = s.rxLen := rfl
@[simp] theorem accept_crcChk : (accept rest s).crcChk = s.crcChk := rfl
@[simp] theorem accept_txBuf : (accept rest s).txBuf = s.txBuf := rfl
@[simp] theorem accept_rxBuf : (accept rest s).rxBuf = s.rxBuf := rfl
@[simp] theorem accept_wdata : (accept rest s).wdata = s.wdata := rfl
@[simp] theorem accept_rdata : (accept rest s).rdata = s.rdata := rfl
@[simp] theorem accept_base : (accept rest s).base = s.base := rfl
@[simp] theorem accept_pending : (accept rest s).pending = rest := rfl
@[simp] theorem accept_response : (accept rest s).response = none := rfl
end Accept

@[simp] theorem softResetOp_status : (softResetOp s).status = Status.reset := rfl
@[simp] theorem softResetOp_crcAcc : (softResetOp s).crcAcc = Config.crcInitial := rfl
@[simp] theorem softResetOp_slaveAddr : (softResetOp s).slaveAddr = 0#8 := rfl
@[simp] theorem softResetOp_startAddr : (softResetOp s).startAddr = 0#16 := rfl
@[simp] theorem softResetOp_count : (softResetOp s).count = 0#16 := rfl
@[simp] theorem softResetOp_value : (softResetOp s).value = 0#16 := rfl
@[simp] theorem softResetOp_txLen : (softResetOp s).txLen = 0#9 := rfl
@[simp] theorem softResetOp_rxLen : (softResetOp s).rxLen = 0#9 := rfl
@[simp] theorem softResetOp_crcChk : (softResetOp s).crcChk = 0#32 := rfl
@[simp] theorem softResetOp_txBuf : (softResetOp s).txBuf = s.txBuf := rfl
@[simp] theorem softResetOp_rxBuf : (softResetOp s).rxBuf = s.rxBuf := rfl
@[simp] theorem softResetOp_wdata : (softResetOp s).wdata = s.wdata := rfl
@[simp] theorem softResetOp_rdata : (softResetOp s).rdata = s.rdata := rfl
@[simp] theorem softResetOp_base : (softResetOp s).base = s.base := rfl
@[simp] theorem softResetOp_pending : (softResetOp s).pending = s.pending := rfl
@[simp] theorem softResetOp_response : (softResetOp s).response = s.response := rfl

@[simp] theorem powerOnReset_base : (powerOnReset s).base = s.base := rfl
@[simp] theorem powerOnReset_pending : (powerOnReset s).pending = s.pending := rfl
@[simp] theorem powerOnReset_response : (powerOnReset s).response = none := rfl
@[simp] theorem powerOnReset_status : (powerOnReset s).status = Status.reset := rfl

section Report
variable (old : Status) (code : ResultCode) (trail coil0 : Bool) (exc rcnt : Byte)

@[simp] theorem report_result : (old.report code trail coil0 exc rcnt).result = code := rfl
@[simp] theorem report_trail : (old.report code trail coil0 exc rcnt).trail = trail := rfl
@[simp] theorem report_coil0 : (old.report code trail coil0 exc rcnt).coil0 = coil0 := rfl
@[simp] theorem report_exc : (old.report code trail coil0 exc rcnt).exc = exc := rfl
@[simp] theorem report_rcnt : (old.report code trail coil0 exc rcnt).rcnt = rcnt := rfl
@[simp] theorem report_sticky :
    (old.report code trail coil0 exc rcnt).sticky = (old.sticky || code.isError) := rfl
end Report

/-- The results that set STICKY are all but NONE and OK (R33). -/
theorem isError_iff (r : ResultCode) : r.isError = true ↔ r ≠ .none ∧ r ≠ .ok := by
  cases r <;> decide

/-- NONE and OK set nothing (R33). -/
@[simp] theorem isError_ok : ResultCode.ok.isError = false := by decide

/-- The same as an equation (R33). -/
theorem isError_eq (r : ResultCode) : r.isError = decide (r ≠ .none ∧ r ≠ .ok) := by
  cases r <;> decide

/-- The word of two fields laid side by side (R27, R42). -/
theorem toNat_append_add {a b : Nat} (x : BitVec a) (y : BitVec b) : (x ++ y).toNat = x.toNat * 2 ^ b + y.toNat := by
  rw [BitVec.toNat_append, Nat.shiftLeft_eq, Nat.mul_comm, ← Nat.two_pow_add_eq_or_of_lt y.isLt]

/-- The defined low bits of a written value (R23). -/
theorem extractLsb'_zero (v : BusWord) (n : Nat) : v.extractLsb' 0 n = v.setWidth n := by
  apply BitVec.eq_of_toNat_eq; simp

end Sys2Proof.Machine
end

