-- ==== Sys2Proof/Laws/Crc.lean ====
section
/-! SUPPORT. The laws of the CRC function (R110): its form on numbers, and how it goes through a byte at a time. -/

namespace Sys2Proof.Machine

/-- The CRC of no bytes (R116). -/
@[simp] theorem crc16_nil : crc16 [] = 0xFFFF#16 := rfl

/-- One more byte is one more step (R112, R115). -/
theorem crc16_append (bs cs : List Byte) : crc16 (bs ++ cs) = cs.foldl crcStep (crc16 bs) := by
  simp [crc16, List.foldl_append]

/-- One iteration on numbers (R110). -/
theorem crcIter_toNat (acc : Word) :
    (crcIter acc).toNat = if acc.toNat % 2 = 1 then (acc.toNat / 2) ^^^ 0xA001 else acc.toNat / 2 := by
  have h0 : acc.getLsbD 0 = decide (acc.toNat % 2 = 1) := by simp [BitVec.getLsbD, Nat.testBit_zero]
  unfold crcIter
  rw [h0]
  by_cases h : acc.toNat % 2 = 1 <;>
    simp [h, Config.crcPoly, BitVec.toNat_xor, BitVec.toNat_ushiftRight, Nat.shiftRight_eq_div_pow]

/-- An iteration of a word with its low bit clear only shifts (R112). -/
theorem crcIter_of_even (acc : Word) (h : acc.getLsbD 0 = false) : crcIter acc = acc >>> 1 := by
  simp only [crcIter, h, Bool.false_eq_true, if_false]

/-- Iterations of a word whose low `n` bits are clear only shift (R112). -/
theorem crcIters_of_low_zero (n : Nat) (acc : Word) (h : ∀ k, k < n → acc.getLsbD k = false) :
    crcIters n acc = acc >>> n := by
  induction n generalizing acc with
  | zero => simp [crcIters]
  | succ n ih =>
    have h0 := crcIter_of_even acc (h 0 (by omega))
    rw [crcIters, h0, ih _ (fun k hk => by
      rw [BitVec.getLsbD_ushiftRight]; exact h (1 + k) (by omega)), ← BitVec.shiftRight_add, Nat.add_comm]

/-- Iterations on numbers (R110). -/
theorem crcIters_toNat (n : Nat) (acc : Word) :
    (crcIters n acc).toNat = (fun x => if x % 2 = 1 then (x / 2) ^^^ 0xA001 else x / 2)^[n] acc.toNat := by
  induction n generalizing acc with
  | zero => rfl
  | succ n ih => rw [crcIters, ih, Function.iterate_succ, Function.comp, crcIter_toNat]

/-- `crc_step` on numbers (R110). -/
theorem crcStep_toNat (acc : Word) (b : Byte) :
    (crcStep acc b).toNat =
      (fun x => if x % 2 = 1 then (x / 2) ^^^ 0xA001 else x / 2)^[8] (acc.toNat ^^^ b.toNat) := by
  rw [crcStep, crcIters_toNat, BitVec.toNat_xor, BitVec.toNat_setWidth, Nat.mod_eq_of_lt (by omega)]

/-- A step whose byte meets the accumulator's low byte leaves the high byte alone (R112). -/
theorem crcStep_of_low (acc : Word) (b : Byte) (h : b.toNat = acc.toNat % 256) : crcStep acc b = acc >>> 8 := by
  have hb : b = acc.setWidth 8 := by
    apply BitVec.eq_of_toNat_eq
    rw [h, BitVec.toNat_setWidth]
  subst hb
  have hx : ∀ k, (acc ^^^ (acc.setWidth 8).setWidth 16).getLsbD k = (decide (8 ≤ k) && acc.getLsbD k) := by
    intro k
    simp only [BitVec.getLsbD_xor, BitVec.getLsbD_setWidth]
    by_cases h8 : k < 8
    · have h16 : k < 16 := by omega
      simp [h8, h16]
    · simp [h8, Nat.le_of_not_lt h8]
  rw [crcStep, crcIters_of_low_zero 8 _ (fun k hk => by rw [hx]; simp; omega)]
  apply BitVec.eq_of_getLsbD_eq
  intro k hk
  rw [BitVec.getLsbD_ushiftRight, BitVec.getLsbD_ushiftRight, hx]
  simp

end Sys2Proof.Machine
end

