-- ==== Sys2Proof/Laws/Decode.lean ====
section
/-! SUPPORT. The laws of decoding: the register map and its offsets, the command words, and the access of an instruction. -/

namespace Sys2Proof

/-- Two entries are one when their indexes are. -/
theorem entryIndex_eq (first off : Nat) (i : Fin 256) (h : off = first + 4 * i.val) : entryIndex first off = i := by
  have := i.isLt
  apply Fin.ext
  simp only [entryIndex, Fin.ofNat, h]
  omega

/-- Past the last register the location is a buffer entry or a hole (R22). -/
theorem locAt_high (off : Nat) (h : 0x034 ≤ off) :
    locAt off =
      if off < 0x400 then .plain (.hole off)
      else if off < 0x800 then .plain (.txBuf (entryIndex 0x400 off))
      else if off < 0xC00 then .plain (.rxBuf (entryIndex 0x800 off))
      else if off < 0x1000 then .plain (.wdata (entryIndex 0xC00 off))
      else if off < 0x1400 then .plain (.rdata (entryIndex 0x1000 off))
      else .plain (.hole off) := by
  have hn : registerMap.lookup off = none := by
    simp only [List.lookup_eq_none_iff, registerMap, List.mem_cons, List.not_mem_nil, or_false, bne_iff_ne, ne_eq]
    rintro p (rfl | rfl | rfl | rfl | rfl | rfl | rfl | rfl | rfl | rfl | rfl | rfl | rfl) <;> simp only <;> omega
  simp only [locAt, hn]

/-- A location of the map is found again at its offset (R22, R64). -/
theorem locAt_offset (l : Loc) (h : l.wf = true) : locAt l.offset = l := by
  cases l with
  | plain p =>
    cases p with
    | hole off =>
      simp only [Loc.wf, PlainLoc.wf, isHoleOffset, Bool.and_eq_true, Bool.or_eq_true, beq_iff_eq, decide_eq_true_eq] at h
      simp only [Loc.offset, PlainLoc.offset]
      rw [locAt_high off (by omega)]
      split_ifs <;> first | omega | rfl
    | txBuf i =>
      have := i.isLt
      simp only [Loc.offset, PlainLoc.offset]
      rw [locAt_high _ (by omega), if_neg (by omega), if_pos (by omega), entryIndex_eq 0x400 _ i rfl]
    | rxBuf i =>
      have := i.isLt
      simp only [Loc.offset, PlainLoc.offset]
      rw [locAt_high _ (by omega), if_neg (by omega), if_neg (by omega), if_pos (by omega), entryIndex_eq 0x800 _ i rfl]
    | wdata i =>
      have := i.isLt
      simp only [Loc.offset, PlainLoc.offset]
      rw [locAt_high _ (by omega), if_neg (by omega), if_neg (by omega), if_neg (by omega), if_pos (by omega),
        entryIndex_eq 0xC00 _ i rfl]
    | rdata i =>
      have := i.isLt
      simp only [Loc.offset, PlainLoc.offset]
      rw [locAt_high _ (by omega), if_neg (by omega), if_neg (by omega), if_neg (by omega), if_neg (by omega),
        if_pos (by omega), entryIndex_eq 0x1000 _ i rfl]
    | _ => decide
  | _ => decide

/-- Every location of the map stands at an aligned offset of the window (R22). -/
theorem offset_aligned (l : Loc) (h : l.wf = true) : l.offset % 4 = 0 ∧ l.offset < 0x2000 := by
  cases l with
  | plain p =>
    cases p with
    | hole off =>
      simp only [Loc.wf, PlainLoc.wf, isHoleOffset, Bool.and_eq_true, Bool.or_eq_true, beq_iff_eq, decide_eq_true_eq] at h
      simp only [Loc.offset, PlainLoc.offset]
      omega
    | txBuf i => have := i.isLt; simp only [Loc.offset, PlainLoc.offset]; omega
    | rxBuf i => have := i.isLt; simp only [Loc.offset, PlainLoc.offset]; omega
    | wdata i => have := i.isLt; simp only [Loc.offset, PlainLoc.offset]; omega
    | rdata i => have := i.isLt; simp only [Loc.offset, PlainLoc.offset]; omega
    | _ => decide
  | _ => decide

/-- The map covers the window: at every aligned offset there is a location, and it is one that stands there (R22, R64). -/
theorem offset_locAt (off : Nat) (h4 : off % 4 = 0) (hw : off < 0x2000) :
    (locAt off).offset = off ∧ (locAt off).wf = true := by
  by_cases h : off < 0x034
  · interval_cases off <;> first | omega | decide
  · rw [locAt_high off (by omega)]
    have hole : (0x034 ≤ off ∧ off ≤ 0x3FC) ∨ (0x1400 ≤ off ∧ off ≤ 0x1FFC) → isHoleOffset off = true := by
      simp only [isHoleOffset, Bool.and_eq_true, Bool.or_eq_true, beq_iff_eq, decide_eq_true_eq]
      exact fun h => ⟨h4, h⟩
    split_ifs
    · exact ⟨rfl, hole (by omega)⟩
    · exact ⟨by simp only [Loc.offset, PlainLoc.offset, entryIndex, Fin.ofNat]; omega, rfl⟩
    · exact ⟨by simp only [Loc.offset, PlainLoc.offset, entryIndex, Fin.ofNat]; omega, rfl⟩
    · exact ⟨by simp only [Loc.offset, PlainLoc.offset, entryIndex, Fin.ofNat]; omega, rfl⟩
    · exact ⟨by simp only [Loc.offset, PlainLoc.offset, entryIndex, Fin.ofNat]; omega, rfl⟩
    · exact ⟨rfl, hole (by omega)⟩

/-- Reaching the block by numbers (R63). -/
theorem reaches_iff (base : Nat) (a : BusAccess) :
    a.reaches base = true ↔ a.addr < base + 0x2000 ∧ base < a.addr + a.span := by
  simp only [BusAccess.reaches, Bool.and_eq_true, decide_eq_true_eq]
  rfl

/-- A single 32-bit transfer covers four bytes. -/
@[simp] theorem span_word (d : Dir) (ad : Nat) (v : BusWord) : BusAccess.span ⟨d, .word, .single, ad, v⟩ = 4 := rfl

/-- A single aligned 32-bit access of the window reaches the block and is read there. -/
theorem decode_window (base off : Nat) (d : Dir) (v : BusWord) (h4 : off % 4 = 0) (hw : off < 0x2000) :
    decode base ⟨d, .word, .single, base + off, v⟩ = match d with
      | .read => .ok (decodeRead (locAt off))
      | .write => decodeWrite (locAt off) v := by
  have hr : BusAccess.reaches base ⟨d, .word, .single, base + off, v⟩ = true := by
    rw [reaches_iff, span_word]
    dsimp only
    omega
  have ho : base + off - base = off := by omega
  have hm : ¬ (base + off < base ∨ off % 4 ≠ 0) := by omega
  simp only [decode, hr, ho, Bool.true_eq_false, if_false, reduceCtorEq, ne_eq, not_true_eq_false]
  exact (if_neg hm).trans (by cases d <;> rfl)

theorem decode_busRead (base off : Nat) (h4 : off % 4 = 0) (hw : off < 0x2000) :
    decode base (busRead base off) = .ok (decodeRead (locAt off)) := decode_window base off .read 0 h4 hw

theorem decode_busWrite (base off : Nat) (v : BusWord) (h4 : off % 4 = 0) (hw : off < 0x2000) :
    decode base (busWrite base off v) = decodeWrite (locAt off) v := decode_window base off .write v h4 hw

/-- The word of a command is put together from its fields (R80). -/
theorem cmd_fields (v w : BusWord) (h0 : cmdOp v = cmdOp w) (h1 : cmdFn v = cmdFn w) (h2 : cmdRsv v = cmdRsv w) :
    v = w := by
  have e0 := congrArg BitVec.toNat h0
  have e1 := congrArg BitVec.toNat h1
  have e2 := congrArg BitVec.toNat h2
  have hv := v.isLt
  have hw := w.isLt
  simp only [cmdOp, cmdFn, cmdRsv, BitVec.extractLsb'_toNat, Nat.shiftRight_eq_div_pow] at e0 e1 e2
  apply BitVec.eq_of_toNat_eq
  omega

/-- A function found by its code has that code (R82). -/
theorem fnOfCode_some {c : Byte} {f : Fn} (h : fnOfCode c = some f) : c = f.code := by
  have := List.find?_some h
  exact (beq_iff_eq.mp this).symm

/-- Every function is found by its code (R82). -/
@[simp] theorem fnOfCode_code (f : Fn) : fnOfCode f.code = some f := by cases f <;> decide

/-- An access that decodes is a single aligned 32-bit access within the window. -/
theorem decode_ok {base : Nat} {a : BusAccess} {i : Instr} (h : decode base a = .ok i) :
    ∃ off, off % 4 = 0 ∧ off < 0x2000 ∧ a = ⟨a.dir, .word, .single, base + off, a.data⟩ := by
  obtain ⟨d, wd, k, ad, v⟩ := a
  simp only [decode] at h
  split_ifs at h with h1 h2 h3 h4 h5
  simp only [ne_eq, not_not] at h3 h4
  subst h3 h4
  rw [Bool.not_eq_false, reaches_iff, span_word] at h1
  dsimp only at h1
  refine ⟨ad - base, by omega, by omega, ?_⟩
  rw [show base + (ad - base) = ad by omega]

end Sys2Proof
end

