-- ==== Sys2Proof/Laws/Memory.lean ====
section
/-! SUPPORT. The laws of the buffers: a read after a write, runs of entries, and that every operation keeps the canonical
form. -/

namespace Sys2Proof.Machine

variable {w : Nat}

/-- A read after a write: the written entry has the value, every other entry what it had. -/
theorem Memory.read_write (m : Memory w) (i k : Nat) (v : BitVec w) :
    (m.write i v).read k = if k = i then some v else m.read k := by
  induction m with
  | nil => simp only [Memory.write, Memory.read]; split <;> simp_all
  | cons c m ih =>
    obtain ⟨j, u⟩ := c
    rcases Nat.lt_trichotomy i j with h | h | h
    · simp only [Memory.write, if_pos h, Memory.read]
      split_ifs <;> first | rfl | omega
    · subst h
      simp only [Memory.write, Nat.lt_irrefl, if_false, if_true, Memory.read]
      split_ifs <;> rfl
    · have h1 : ¬ i < j := by omega
      have h2 : ¬ i = j := by omega
      simp only [Memory.write, if_neg h1, if_neg h2, Memory.read, ih]
      split_ifs <;> first | rfl | omega

/-- After a run of writes from `i` on, the entries of the run are the written values and the others are as before. -/
theorem Memory.read_writeFrom (vs : List (BitVec w)) (m : Memory w) (i k : Nat) :
    (m.writeFrom i vs).read k = if i ≤ k ∧ k < i + vs.length then vs[k - i]? else m.read k := by
  induction vs generalizing m i with
  | nil => simp only [Memory.writeFrom, List.length_nil]; split <;> first | rfl | omega
  | cons v vs ih =>
    simp only [Memory.writeFrom, ih, Memory.read_write, List.length_cons]
    by_cases h : k = i
    · subst h; simp
    · by_cases h2 : i + 1 ≤ k ∧ k < i + 1 + vs.length
      · rw [if_pos h2, if_pos ⟨by omega, by omega⟩, show k - i = (k - (i + 1)) + 1 by omega, List.getElem?_cons_succ]
      · rw [if_neg h2, if_neg h, if_neg (by omega)]

/-- A run of reads succeeds exactly with the list of the entries' values. -/
theorem Memory.readFrom_eq_ok (m : Memory w) (n i : Nat) (vs : List (BitVec w)) :
    m.readFrom i n = .ok vs ↔ vs.length = n ∧ ∀ k, k < n → m.read (i + k) = vs[k]? := by
  induction n generalizing i vs with
  | zero =>
    simp only [Memory.readFrom, Except.ok.injEq]
    constructor
    · rintro rfl; simp
    · rintro ⟨h, -⟩; exact (List.length_eq_zero_iff.mp h).symm
  | succ n ih =>
    simp only [Memory.readFrom]
    constructor
    · intro h
      split at h
      · cases h
      · rename_i v hv
        split at h
        · cases h
        · rename_i us hus
          cases h
          obtain ⟨h1, h2⟩ := (ih (i + 1) us).mp hus
          refine ⟨by simp [h1], fun k hk => ?_⟩
          cases k with
          | zero => simpa using hv
          | succ k => rw [List.getElem?_cons_succ, ← h2 k (by omega)]; congr 1; omega
    · rintro ⟨hl, hk⟩
      cases vs with
      | nil => simp at hl
      | cons v us =>
        have h0 : m.read i = some v := by simpa using hk 0 (by omega)
        have h1 : m.readFrom (i + 1) n = .ok us := (ih (i + 1) us).mpr
          ⟨by simpa using hl, fun k hk' => by
            have := hk (k + 1) (by omega)
            rw [List.getElem?_cons_succ] at this
            rw [← this]; congr 1; omega⟩
        simp only [h0, h1]

/-- A run of reads fails at an entry of the run that has no value. -/
theorem Memory.readFrom_error (m : Memory w) (n i j : Nat) (h : m.readFrom i n = .error j) :
    i ≤ j ∧ j < i + n ∧ m.read j = none := by
  induction n generalizing i with
  | zero => simp [Memory.readFrom] at h
  | succ n ih =>
    simp only [Memory.readFrom] at h
    split at h
    · cases h; exact ⟨by omega, by omega, by assumption⟩
    · split at h
      · rename_i k hk
        cases h
        obtain ⟨h1, h2, h3⟩ := ih (i + 1) hk
        exact ⟨by omega, by omega, h3⟩
      · cases h

/-- A run of reads that covers an entry without a value fails. -/
theorem Memory.readFrom_unwritten (m : Memory w) (n i k : Nat) (hi : i ≤ k) (hk : k < i + n) (h : m.read k = none) :
    ∃ j, m.readFrom i n = .error j := by
  cases hr : m.readFrom i n with
  | error j => exact ⟨j, rfl⟩
  | ok vs =>
    obtain ⟨h1, h2⟩ := (Memory.readFrom_eq_ok m n i vs).mp hr
    have := h2 (k - i) (by omega)
    rw [show i + (k - i) = k by omega, h] at this
    rw [eq_comm, List.getElem?_eq_none_iff] at this
    omega

/-- A run of reads over entries that all have values succeeds. -/
theorem Memory.readFrom_written (m : Memory w) (n i : Nat) (h : ∀ k, i ≤ k → k < i + n → (m.read k).isSome) :
    ∃ vs, m.readFrom i n = .ok vs := by
  cases hr : m.readFrom i n with
  | ok vs => exact ⟨vs, rfl⟩
  | error j =>
    obtain ⟨h1, h2, h3⟩ := Memory.readFrom_error m n i j hr
    have := h j h1 h2
    simp [h3] at this

/-- The entries of a buffer given as a run. -/
theorem Memory.read_ofEntries (vs : List (BitVec w)) (i k : Nat) :
    (Memory.ofEntries i vs).read k = if i ≤ k then vs[k - i]? else none := by
  induction vs generalizing i with
  | nil => simp [Memory.ofEntries, Memory.read]
  | cons v vs ih =>
    simp only [Memory.ofEntries, Memory.read, ih]
    by_cases h : k = i
    · subst h; simp
    · by_cases h2 : k < i
      · rw [if_neg h, if_pos h2, if_neg (by omega)]
      · rw [if_neg h, if_neg h2, if_pos (by omega), if_pos (by omega), show k - i = (k - (i + 1)) + 1 by omega,
          List.getElem?_cons_succ]

/-- A filled buffer begins with the given values (R178). -/
theorem Memory.read_fill_of_lt (vs : List (BitVec w)) (j : Nat) (h : j < vs.length) :
    (Memory.fill vs).read j = vs[j]? := by
  simp [Memory.fill, Memory.read_ofEntries, List.getElem?_append, h]

/-- A filled buffer is 0 after the given values (R178). -/
theorem Memory.read_fill_of_ge (vs : List (BitVec w)) (j : Nat) (h : vs.length ≤ j) (hj : j < 256) :
    (Memory.fill vs).read j = some 0 := by
  simp only [Memory.fill, Memory.read_ofEntries, Nat.zero_le, if_true, Nat.sub_zero, Config.bufSize]
  rw [List.getElem?_append_right h, List.getElem?_replicate_of_lt (by omega)]

/-- Every entry that a write leaves listed was listed, or is the written one. -/
theorem Memory.mem_write (m : Memory w) (i : Nat) (v : BitVec w) (c : Nat × BitVec w) (h : c ∈ m.write i v) :
    c ∈ m ∨ c = (i, v) := by
  induction m with
  | nil => simp [Memory.write] at h; exact .inr h
  | cons d m ih =>
    obtain ⟨j, u⟩ := d
    simp only [Memory.write] at h
    split_ifs at h <;> simp only [List.mem_cons] at h ⊢ <;> tauto

/-- A write of an entry below 256 keeps the canonical form. -/
theorem Memory.wf_write (m : Memory w) (i : Nat) (v : BitVec w) (h : m.wf) (hi : i < Config.bufSize) :
    (m.write i v).wf := by
  refine ⟨?_, fun c hc => ?_⟩
  · have hp := h.1
    clear h
    induction m with
    | nil => simp [Memory.write]
    | cons d m ih =>
      obtain ⟨j, u⟩ := d
      rw [List.pairwise_cons] at hp
      simp only [Memory.write]
      split_ifs with h1 h2
      · refine List.pairwise_cons.mpr ⟨fun c hc => ?_, List.pairwise_cons.mpr hp⟩
        rcases List.mem_cons.mp hc with rfl | hc
        · exact h1
        · exact Nat.lt_trans h1 (hp.1 c hc)
      · exact List.pairwise_cons.mpr ⟨fun c hc => by subst h2; exact hp.1 c hc, hp.2⟩
      · refine List.pairwise_cons.mpr ⟨fun c hc => ?_, ih hp.2⟩
        rcases Memory.mem_write m i v c hc with hc | rfl
        · exact hp.1 c hc
        · show j < i; omega
  · rcases Memory.mem_write m i v c hc with hc | rfl
    · exact h.2 c hc
    · exact hi

/-- A run of writes that stays below 256 keeps the canonical form. -/
theorem Memory.wf_writeFrom (vs : List (BitVec w)) (m : Memory w) (i : Nat) (h : m.wf)
    (hi : i + vs.length ≤ Config.bufSize) : (m.writeFrom i vs).wf := by
  induction vs generalizing m i with
  | nil => exact h
  | cons v vs ih =>
    simp only [List.length_cons] at hi
    exact ih _ (i + 1) (Memory.wf_write m i v h (by omega)) (by omega)

/-- A buffer given as a run that stays below 256 is canonical. -/
theorem Memory.wf_ofEntries (vs : List (BitVec w)) (i : Nat) (h : i + vs.length ≤ Config.bufSize) :
    (Memory.ofEntries i vs).wf ∧ ∀ c ∈ Memory.ofEntries i vs, i ≤ c.1 := by
  induction vs generalizing i with
  | nil => exact ⟨⟨List.Pairwise.nil, by simp [Memory.ofEntries]⟩, by simp [Memory.ofEntries]⟩
  | cons v vs ih =>
    simp only [List.length_cons] at h
    obtain ⟨⟨h1, h2⟩, h3⟩ := ih (i + 1) (by omega)
    refine ⟨⟨List.pairwise_cons.mpr ⟨fun c hc => h3 c hc, h1⟩, fun c hc => ?_⟩, fun c hc => ?_⟩
    · rcases List.mem_cons.mp hc with rfl | hc
      · show i < _; omega
      · exact h2 c hc
    · rcases List.mem_cons.mp hc with rfl | hc
      · exact Nat.le_refl i
      · have := h3 c hc; omega

/-- A filled buffer of at most 256 values is canonical. -/
theorem Memory.wf_fill (vs : List (BitVec w)) (h : vs.length ≤ Config.bufSize) : (Memory.fill vs).wf :=
  (Memory.wf_ofEntries _ 0 (by simp [Nat.add_sub_cancel' h])).1

/-- A filled buffer has all its values (R178). -/
theorem Memory.isSome_read_fill (vs : List (BitVec w)) (i : Nat) (h : i < 256) :
    ((Memory.fill vs).read i).isSome := by
  by_cases hi : i < vs.length
  · rw [Memory.read_fill_of_lt vs i hi]; simp [hi]
  · rw [Memory.read_fill_of_ge vs i (by omega) h]; rfl

end Sys2Proof.Machine
end

