-- ==== Sys2Proof/Laws/Encoder.lean ====
section
/-! SUPPORT. The laws of BUILD: the bytes of a word and of a frame, and the three ways a BUILD can end. -/

namespace Sys2Proof.Machine

theorem hiByte_toNat (w : Word) : (hiByte w).toNat = w.toNat / 256 := by
  have := w.isLt
  simp [hiByte, Nat.shiftRight_eq_div_pow]; omega

theorem loByte_toNat (w : Word) : (loByte w).toNat = w.toNat % 256 := by
  simp [loByte]

theorem hiByte_eq (w : Word) : hiByte w = BitVec.ofNat 8 (w.toNat / 256) := by
  apply BitVec.eq_of_toNat_eq
  have := w.isLt
  rw [hiByte_toNat, BitVec.toNat_ofNat]; omega

theorem loByte_eq (w : Word) : loByte w = BitVec.ofNat 8 (w.toNat % 256) := by
  apply BitVec.eq_of_toNat_eq
  rw [loByte_toNat, BitVec.toNat_ofNat]; omega

/-- A payload word goes out high byte first (R71). -/
theorem wireBytes_eq_bigEndian : wireBytes = bigEndian := by
  funext w; simp [wireBytes, bigEndian, hiByte_eq, loByte_eq]

/-- A CRC goes out low byte first (R71). -/
theorem crcBytes_eq_crcTrailer (c : Word) : crcBytes c = crcTrailer c := by
  simp [crcBytes, crcTrailer, hiByte_eq, loByte_eq]

@[simp] theorem wireBytes_length (w : Word) : (wireBytes w).length = 2 := rfl

@[simp] theorem crcBytes_length (c : Word) : (crcBytes c).length = 2 := rfl

@[simp] theorem flatMap_wireBytes_length (ws : List Word) : (ws.flatMap wireBytes).length = 2 * ws.length := by
  induction ws with
  | nil => rfl
  | cons w ws ih => simp only [List.flatMap_cons, List.length_append, ih, wireBytes_length, List.length_cons]; omega

/-- A word is put together again from its two bytes (R94). -/
@[simp] theorem wordOf_bytes (w : Word) : wordOf (hiByte w) (loByte w) = w := by
  apply BitVec.eq_of_toNat_eq
  rw [wordOf, BitVec.toNat_append, hiByte_toNat, loByte_toNat, Nat.shiftLeft_eq, Nat.mul_comm,
    ← Nat.two_pow_add_eq_or_of_lt (by omega)]
  omega

/-- The words of a payload are put together again from its bytes (R88, R94). -/
@[simp] theorem wordsOf_flatMap (ws : List Word) : wordsOf (ws.flatMap wireBytes) = ws := by
  induction ws with
  | nil => rfl
  | cons w ws ih => simp [wireBytes, wordsOf] at ih ⊢; exact ih

@[simp] theorem shortBody_length (fn : Fn) (a : Byte) (w1 w2 : Word) : (shortBody fn a w1 w2).length = 6 := rfl

@[simp] theorem multipleBody_length (a : Byte) (st n : Word) (ws : List Word) :
    (multipleBody a st n ws).length = 7 + 2 * ws.length := by
  simp [multipleBody]; omega

@[simp] theorem frameOf_length (body : List Byte) : (frameOf body).length = body.length + 2 := by
  simp [frameOf]

/-- `check_build_args` by its numbers (R139). -/
theorem buildArgsOk_iff (fn : Fn) (n v : Word) :
    buildArgsOk fn n v = true ↔ match fn with
      | .rc | .rdi => 1 ≤ n.toNat ∧ n.toNat ≤ 2000
      | .rhr | .rir => 1 ≤ n.toNat ∧ n.toNat ≤ 125
      | .wsc => v = 0xFF00#16 ∨ v = 0x0000#16
      | .wsr => True
      | .wmr => 1 ≤ n.toNat ∧ n.toNat ≤ 123 := by
  cases fn <;> simp only [buildArgsOk, countOk, Bool.and_eq_true, Bool.or_eq_true, decide_eq_true_eq, beq_iff_eq]
  all_goals exact Iff.rfl

/-- The quantity range of a write-multiple request (R139). -/
theorem wmr_argsOk {n v : Word} (h : buildArgsOk .wmr n v = true) : 1 ≤ n.toNat ∧ n.toNat ≤ 123 := by
  simp only [buildArgsOk, countOk, Bool.and_eq_true, decide_eq_true_eq] at h
  exact h

/-- The body of a request whose arguments are in range leaves room for its CRC within 255 bytes (R43, R139). -/
theorem requestBody_length {fn : Fn} {s : State} {body : List Byte} (hb : requestBody fn s = .ok body)
    (ha : buildArgsOk fn s.count s.value = true) : body.length + 2 ≤ 255 := by
  cases fn <;> simp only [requestBody] at hb
  case wmr =>
    split at hb
    · cases hb
    · rename_i ws hws
      cases hb
      have hl := ((Memory.readFrom_eq_ok _ _ _ _).mp hws).1
      have hn := (wmr_argsOk ha).2
      simp only [multipleBody_length]; omega
  all_goals cases hb; simp

/-- The ways a BUILD ends: BAD_ARGUMENT, a WDATA entry without a value, or a request sent (R130, R138, R48). -/
theorem build_cases (fn : Fn) (s : State) :
    (buildArgsOk fn s.count s.value = false ∧ build fn s = .next (raise .badArgument false 0#8 s)) ∨
    (∃ j, fn = .wmr ∧ j < s.count.toNat ∧ s.count.toNat ≤ 123 ∧ s.wdata.read j = none ∧
      build fn s = .fault (.unwrittenEntry .wdata j)) ∨
    (∃ body, buildArgsOk fn s.count s.value = true ∧ requestBody fn s = .ok body ∧ body.length + 2 ≤ 255 ∧
      build fn s = .next (sendFrame body s)) := by
  cases ha : buildArgsOk fn s.count s.value with
  | false => exact .inl ⟨rfl, by simp [build, ha]⟩
  | true =>
    refine .inr ?_
    cases hb : requestBody fn s with
    | ok body => exact .inr ⟨body, rfl, rfl, requestBody_length hb ha, by simp [build, ha, hb]⟩
    | error j =>
      refine .inl ⟨j, ?_⟩
      cases fn <;> simp only [requestBody] at hb
      case wmr =>
        split at hb
        · rename_i i hi
          cases hb
          obtain ⟨-, h2, h3⟩ := Memory.readFrom_error _ _ _ _ hi
          exact ⟨rfl, by omega, (wmr_argsOk ha).2, h3, by simp [build, ha, requestBody, hi]⟩
        · cases hb
      all_goals cases hb

/-- What a request that is sent leaves behind (R130). -/
theorem sendFrame_built (body : List Byte) (s : State) (h : body.length + 2 ≤ 255) :
    BuiltRequest body s (sendFrame body s) where
  frame := by
    intro i hi
    simp only [List.length_append, crcTrailer, List.length_cons, List.length_nil] at hi
    simp only [sendFrame, finish_txBuf, Memory.read_writeFrom, frameOf_length, Nat.zero_le, true_and, Nat.zero_add]
    rw [if_pos (by omega)]
    simp [frameOf, crcBytes_eq_crcTrailer]
  beyond := by
    intro i hi
    simp only [sendFrame, finish_txBuf, Memory.read_writeFrom, frameOf_length, Nat.zero_le, true_and, Nat.zero_add]
    rw [if_neg (by omega)]
  txLen := by
    simp only [sendFrame, finish_txLen, frameOf_length, BitVec.toNat_ofNat]
    omega
  crcChk := rfl
  status := by simp [sendFrame, okStatus, Status.report]
  rest := rfl

/-- What a command that ends with an error leaves: STATUS alone is written (R221, R222). -/
theorem raise_eq (code : ResultCode) (trail : Bool) (exc : Byte) (s : State) (h1 : code ≠ .none) (h2 : code ≠ .ok) :
    raise code trail exc s = { s with status := errorStatus code trail exc } := by
  simp [raise, errorStatus, Status.report, (isError_iff code).mpr ⟨h1, h2⟩]

/-- STATUS after an error is legal (R29 to R33). -/
theorem report_error_legal (old : Status) (code : ResultCode) (trail : Bool) (exc : Byte)
    (h1 : code ≠ .modbusException → exc = 0#8) (h2 : code ≠ .none)
    (h3 : code ∈ [ResultCode.none, .badCommand, .badArgument, .invalidResponse] → trail = false) :
    (old.report code trail false exc 0#8).Legal :=
  ⟨h1, fun _ => rfl, fun _ => rfl, Nat.zero_le _, h3, fun h => absurd h h2⟩

/-- STATUS after OK is legal (R29 to R33). -/
theorem report_ok_legal (old : Status) (trail coil0 : Bool) (rcnt : Byte) (h : rcnt.toNat ≤ 250) :
    (old.report .ok trail coil0 0#8 rcnt).Legal :=
  ⟨fun _ => rfl, fun h => absurd rfl h, fun h => absurd rfl h, h, fun h => by simp at h, fun h => by cases h⟩

/-- A BUILD with good arguments and a body sends the request (R130). -/
theorem build_ok (fn : Fn) (s : State) (body : List Byte) (ha : buildArgsOk fn s.count s.value = true)
    (hb : requestBody fn s = .ok body) : ∃ t, build fn s = .next t ∧ BuiltRequest body s t :=
  ⟨_, by simp only [build, ha, if_true, hb], sendFrame_built body s (requestBody_length hb ha)⟩

end Sys2Proof.Machine
end

