-- ==== Sys2Proof/Laws/FrameDecoder.lean ====
section
/-! SUPPORT. The laws of PARSE: the frame length, and the ways a PARSE can end. -/

namespace Sys2Proof.Machine

/-- Bit 7 by the byte's value (R92). -/
theorem isException_iff (b : Byte) : isException b = true ↔ 0x80 ≤ b.toNat := by
  simp only [isException, BitVec.getLsbD, Nat.testBit_eq_decide_div_mod_eq, decide_eq_true_eq]
  have := b.isLt
  omega

/-- `count_ok` by its numbers (R161). -/
theorem countInRange_iff (fn : Fn) (n : Word) :
    CountInRange fn n ↔ ¬ (isRead fn = true ∧ countOk fn n = false) := by
  cases fn <;> simp only [CountInRange, isRead, ← Bool.not_eq_true, countOk, Bool.and_eq_true, decide_eq_true_eq,
    true_and, not_not, Bool.false_eq_true, false_and, not_false_eq_true]
  all_goals exact Iff.rfl

/-- The expected byte count by its numbers (R170). -/
theorem expectedByteCount_eq (fn : Fn) (n : Word) : expectedByteCount fn n = byteCountFor fn n := by
  cases fn <;> simp only [expectedByteCount, byteCountFor]
  all_goals split <;> omega

/-- The expected byte count of a read in range is 1 to 250, so that it fits in a byte (R170). -/
theorem expectedByteCount_le (fn : Fn) (n : Word) (h : CountInRange fn n) : expectedByteCount fn n ≤ 250 := by
  cases fn <;> simp only [CountInRange] at h <;> simp only [expectedByteCount] <;> omega

/-- The model's frame length is that of R163. -/
theorem responseLength_eq_ok (fn : Fn) (rx : Memory 8) (len : Nat) :
    responseLength fn rx = .ok len ↔ FrameLength fn rx len := by
  simp only [responseLength, FrameLength]
  cases h1 : rx.read 1 with
  | none => simp
  | some r1 =>
    have hx := isException_iff r1
    by_cases he : isException r1 = true
    · have := hx.mp he
      simp only [he, if_true, Except.ok.injEq, Option.some.injEq, exists_eq_left']
      constructor
      · rintro rfl; exact .inl ⟨this, rfl⟩
      · rintro (⟨-, rfl⟩ | ⟨h, -⟩ | ⟨h, -⟩) <;> first | rfl | omega
    · have : r1.toNat < 0x80 := by have := mt hx.mpr he; omega
      simp only [Bool.not_eq_true] at he
      simp only [he, Bool.false_eq_true, if_false, Option.some.injEq, exists_eq_left']
      cases hr : isRead fn with
      | false =>
        simp only [Bool.false_eq_true, if_false, Except.ok.injEq]
        constructor
        · rintro rfl; exact .inr (.inl ⟨this, trivial, rfl⟩)
        · rintro (⟨h, -⟩ | ⟨-, -, rfl⟩ | ⟨-, h, -⟩) <;> first | rfl | omega | cases h
      | true =>
        simp only [if_true]
        cases h2 : rx.read 2 with
        | none =>
          simp only [reduceCtorEq, false_iff]
          rintro (⟨h, -⟩ | ⟨-, h, -⟩ | ⟨-, -, r2, h, -⟩)
          · omega
          all_goals cases h
        | some r2 =>
          simp only [Except.ok.injEq]
          constructor
          · rintro rfl; exact .inr (.inr ⟨this, trivial, r2, rfl, rfl⟩)
          · rintro (⟨h, -⟩ | ⟨-, h, -⟩ | ⟨-, -, r, h, rfl⟩)
            · omega
            · cases h
            · cases h; rfl

/-- A frame length is at least 5 (R163). -/
theorem responseLength_ge {fn : Fn} {rx : Memory 8} {len : Nat} (h : responseLength fn rx = .ok len) : 5 ≤ len := by
  obtain ⟨r1, -, h | h | ⟨-, -, r2, -, h⟩⟩ := (responseLength_eq_ok fn rx len).mp h <;> omega

/-- The frame length fails at an entry it needs, 1 or 2, that has no value (R48). -/
theorem responseLength_error {fn : Fn} {rx : Memory 8} {i : Nat} (h : responseLength fn rx = .error i) :
    rx.read i = none ∧ i < 3 := by
  simp only [responseLength] at h
  split at h
  · cases h; exact ⟨by assumption, by omega⟩
  · split at h
    · cases h
    · split at h
      · split at h
        · cases h; exact ⟨by assumption, by omega⟩
        · cases h
      · cases h

/-- The decoded values of a response in range are at most 250, so that RCNT holds their number (R27, R32). -/
theorem decodedWords_length (fn : Fn) (n : Word) (f : List Byte) (h : CountInRange fn n) :
    (decodedWords fn n f).length ≤ 250 := by
  have hw : ∀ bs : List Byte, (wordsOf bs).length ≤ bs.length := by
    intro bs
    induction bs using wordsOf.induct with
    | case1 hi lo bs ih => simp only [wordsOf, List.length_cons]; omega
    | case2 bs hbs => unfold wordsOf; split <;> simp_all
  have he := expectedByteCount_le fn n h
  cases fn <;> simp only [decodedWords, List.length_map, List.length_take]
  case rhr => exact Nat.le_trans (hw _) (by rw [List.length_take]; omega)
  case rir => exact Nat.le_trans (hw _) (by rw [List.length_take]; omega)
  case wsc => exact Nat.le_trans (hw _) (by rw [List.length_take]; omega)
  case wsr => exact Nat.le_trans (hw _) (by rw [List.length_take]; omega)
  case wmr => exact Nat.le_trans (hw _) (by rw [List.length_take]; omega)
  all_goals omega

/-- `s` with CRC_CHK written, which a PARSE does even where it fails (R10). -/
def withCrcChk (c : BusWord) (s : State) : State := { s with crcChk := c }

/-- The ways the steps from the CRC on end: one of five errors, or the outputs delivered, in the order of R160. -/
theorem judge_cases (fn : Fn) (trail : Bool) (f : List Byte) (s : State) :
    let u := withCrcChk (crcChkOf (recvCrc f) (calcCrc f)) s
    (∃ code exc, code ∈ [ResultCode.crcMismatch, .addressMismatch, .modbusException, .functionMismatch, .bytecountMismatch] ∧
      (code ≠ .modbusException → exc = 0#8) ∧ judge fn trail f s = raise code trail exc u) ∨
    (calcCrc f = recvCrc f ∧ byteAt f 0 = s.slaveAddr ∧ byteAt f 1 = fn.code ∧
      (isRead fn = true → (byteAt f 2).toNat = expectedByteCount fn s.count) ∧
      judge fn trail f s = deliver fn trail f u) := by
  intro u
  simp only [judge]
  split_ifs with h1 h2 h3 h4 h5
  · exact .inl ⟨_, _, by simp, fun _ => rfl, rfl⟩
  · exact .inl ⟨_, _, by simp, fun _ => rfl, rfl⟩
  · exact .inl ⟨_, _, by simp, fun h => absurd rfl h, rfl⟩
  · exact .inl ⟨_, _, by simp, fun _ => rfl, rfl⟩
  · exact .inl ⟨_, _, by simp, fun _ => rfl, rfl⟩
  · refine .inr ⟨not_not.mp h1, not_not.mp h2, not_not.mp h4, fun hr => ?_, rfl⟩
    by_contra hne
    exact h5 ⟨hr, hne⟩

/-- The ways a PARSE ends: a bad argument or a short response with CRC_CHK 0, an RX_BUF entry without a value, or the
frame judged (R160). -/
theorem parse_cases (fn : Fn) (s : State) :
    ((256 < s.rxLen.toNat ∨ ¬ CountInRange fn s.count) ∧
      parse fn s = .next (raise .badArgument false 0#8 (withCrcChk 0#32 s))) ∨
    (s.rxLen.toNat ≤ 256 ∧ CountInRange fn s.count ∧
      (s.rxLen.toNat < 5 ∨ ∃ len, responseLength fn s.rxBuf = .ok len ∧ s.rxLen.toNat < len) ∧
      parse fn s = .next (raise .invalidResponse false 0#8 (withCrcChk 0#32 s))) ∨
    (∃ i, i < 256 ∧ s.rxBuf.read i = none ∧ s.rxLen.toNat ≤ 256 ∧
      parse fn s = .fault (.unwrittenEntry .rxBuf i)) ∨
    (∃ f, s.rxLen.toNat ≤ 256 ∧ CountInRange fn s.count ∧ responseLength fn s.rxBuf = .ok f.length ∧
      f.length ≤ s.rxLen.toNat ∧ s.rxBuf.readFrom 0 f.length = .ok f ∧
      parse fn s = .next (judge fn (decide (f.length < s.rxLen.toNat)) f s)) := by
  have hp : parse fn s =
      if 256 < s.rxLen.toNat then .next (raise .badArgument false 0#8 (withCrcChk 0#32 s))
      else if isRead fn ∧ countOk fn s.count = false then .next (raise .badArgument false 0#8 (withCrcChk 0#32 s))
      else if s.rxLen.toNat < 5 then .next (raise .invalidResponse false 0#8 (withCrcChk 0#32 s))
      else match responseLength fn s.rxBuf with
        | .error i => .fault (.unwrittenEntry .rxBuf i)
        | .ok len =>
          if s.rxLen.toNat < len then .next (raise .invalidResponse false 0#8 (withCrcChk 0#32 s))
          else match s.rxBuf.readFrom 0 len with
            | .error i => .fault (.unwrittenEntry .rxBuf i)
            | .ok f => .next (judge fn (decide (len < s.rxLen.toNat)) f (withCrcChk 0#32 s)) := rfl
  have hc := countInRange_iff fn s.count
  by_cases h1 : 256 < s.rxLen.toNat
  · exact .inl ⟨.inl h1, by rw [hp, if_pos h1]⟩
  rw [if_neg h1] at hp
  by_cases h2 : isRead fn = true ∧ countOk fn s.count = false
  · exact .inl ⟨.inr (fun h => hc.mp h h2), by rw [hp, if_pos h2]⟩
  rw [if_neg h2] at hp
  have hin := hc.mpr h2
  refine .inr ?_
  by_cases h3 : s.rxLen.toNat < 5
  · exact .inl ⟨by omega, hin, .inl h3, by rw [hp, if_pos h3]⟩
  rw [if_neg h3] at hp
  cases hl : responseLength fn s.rxBuf with
  | error i =>
    obtain ⟨h4, h5⟩ := responseLength_error hl
    exact .inr (.inl ⟨i, by omega, h4, by omega, by rw [hp, hl]⟩)
  | ok len =>
    simp only [hl] at hp
    by_cases h4 : s.rxLen.toNat < len
    · exact .inl ⟨by omega, hin, .inr ⟨len, rfl, h4⟩, by rw [hp, if_pos h4]⟩
    rw [if_neg h4] at hp
    cases hf : s.rxBuf.readFrom 0 len with
    | error i =>
      obtain ⟨-, h5, h6⟩ := Memory.readFrom_error _ _ _ _ hf
      exact .inr (.inl ⟨i, by omega, h6, by omega, by rw [hp, hf]⟩)
    | ok f =>
      obtain ⟨h5, -⟩ := (Memory.readFrom_eq_ok _ _ _ _).mp hf
      subst h5
      exact .inr (.inr ⟨f, by omega, hin, rfl, by omega, hf, by rw [hp, hf]; rfl⟩)

/-- A received frame is judged (R160). -/
theorem parse_received (fn : Fn) (f : List Byte) (s : State) (h : Received fn f s) (hc : CountInRange fn s.count) :
    parse fn s = .next (judge fn (decide (f.length < s.rxLen.toNat)) f s) := by
  have hr := (responseLength_eq_ok fn s.rxBuf f.length).mpr h.length
  have h5 := responseLength_ge hr
  have hcn := (countInRange_iff fn s.count).mp hc
  have hf : s.rxBuf.readFrom 0 f.length = .ok f :=
    (Memory.readFrom_eq_ok _ _ _ _).mpr ⟨rfl, fun k hk => by rw [Nat.zero_add]; exact h.bytes k hk⟩
  have h6 := h.covered
  have h7 := h.within
  simp only [parse]
  rw [if_neg (by simp only [Config.bufSize]; omega), if_neg hcn, if_neg (by simp only [Config.minFrame]; omega), hr]
  dsimp only
  rw [if_neg (by omega), hf]
  rfl

/-- The CRC words of a frame that carries its own CRC (R117, R165). -/
theorem crc_of_frame (body : List Byte) :
    calcCrc (body ++ crcTrailer (crc16 body)) = crc16 body ∧ recvCrc (body ++ crcTrailer (crc16 body)) = crc16 body := by
  rw [← crcBytes_eq_crcTrailer]
  constructor
  · simp [calcCrc]
  · have e1 : byteAt (body ++ crcBytes (crc16 body)) ((body ++ crcBytes (crc16 body)).length - 1) =
        hiByte (crc16 body) := by simp [byteAt, crcBytes]
    have e2 : byteAt (body ++ crcBytes (crc16 body)) ((body ++ crcBytes (crc16 body)).length - 2) =
        loByte (crc16 body) := by simp [byteAt, crcBytes]
    rw [recvCrc, e1, e2, wordOf_bytes]

end Sys2Proof.Machine
end

