-- ==== Sys2Proof/Laws/PerInstr.lean ====
section
/-! SUPPORT. Statements made per instruction. `EncodedForm` says of the access an instruction encodes to that it is one
aligned 32-bit access within the window (R62, R84). -/

namespace Sys2Proof.Laws.EncodedForm

/-- The access of a well-formed instruction is a single aligned 32-bit access of the window. -/
def Statement (i : Instr) : Prop :=
  ∀ base : Nat, i.wf = true →
    ∃ d off v, encode base i = ⟨d, .word, .single, base + off, v⟩ ∧ off % 4 = 0 ∧ off < 0x2000

theorem crcInit : Statement .crcInit := fun _ _ => ⟨_, _, _, rfl, by decide, by decide⟩
theorem buildRc : Statement .buildRc := fun _ _ => ⟨_, _, _, rfl, by decide, by decide⟩
theorem buildRdi : Statement .buildRdi := fun _ _ => ⟨_, _, _, rfl, by decide, by decide⟩
theorem buildRhr : Statement .buildRhr := fun _ _ => ⟨_, _, _, rfl, by decide, by decide⟩
theorem buildRir : Statement .buildRir := fun _ _ => ⟨_, _, _, rfl, by decide, by decide⟩
theorem buildWsc : Statement .buildWsc := fun _ _ => ⟨_, _, _, rfl, by decide, by decide⟩
theorem buildWsr : Statement .buildWsr := fun _ _ => ⟨_, _, _, rfl, by decide, by decide⟩
theorem buildWmr : Statement .buildWmr := fun _ _ => ⟨_, _, _, rfl, by decide, by decide⟩
theorem parseRc : Statement .parseRc := fun _ _ => ⟨_, _, _, rfl, by decide, by decide⟩
theorem parseRdi : Statement .parseRdi := fun _ _ => ⟨_, _, _, rfl, by decide, by decide⟩
theorem parseRhr : Statement .parseRhr := fun _ _ => ⟨_, _, _, rfl, by decide, by decide⟩
theorem parseRir : Statement .parseRir := fun _ _ => ⟨_, _, _, rfl, by decide, by decide⟩
theorem parseWsc : Statement .parseWsc := fun _ _ => ⟨_, _, _, rfl, by decide, by decide⟩
theorem parseWsr : Statement .parseWsr := fun _ _ => ⟨_, _, _, rfl, by decide, by decide⟩
theorem parseWmr : Statement .parseWmr := fun _ _ => ⟨_, _, _, rfl, by decide, by decide⟩
theorem loopback : Statement .loopback := fun _ _ => ⟨_, _, _, rfl, by decide, by decide⟩
theorem crcByte (v : BusWord) : Statement (.crcByte v) := fun _ _ => ⟨_, _, _, rfl, by decide, by decide⟩
theorem crcSet (v : BusWord) : Statement (.crcSet v) := fun _ _ => ⟨_, _, _, rfl, by decide, by decide⟩
theorem crcRead : Statement .crcRead := fun _ _ => ⟨_, _, _, rfl, by decide, by decide⟩
theorem softReset (v : BusWord) : Statement (.softReset v) := fun _ _ => ⟨_, _, _, rfl, by decide, by decide⟩
theorem statusClear (v : BusWord) : Statement (.statusClear v) := fun _ _ => ⟨_, _, _, rfl, by decide, by decide⟩

theorem regWrite (l : PlainLoc) (v : BusWord) : Statement (.regWrite l v) := fun _ h =>
  have := offset_aligned (.plain l) h
  ⟨_, _, _, rfl, this.1, this.2⟩

theorem regRead (l : Loc) : Statement (.regRead l) := fun _ h =>
  have := offset_aligned l (Bool.and_eq_true_iff.mp h).1
  ⟨_, _, _, rfl, this.1, this.2⟩

end Sys2Proof.Laws.EncodedForm
end

