-- ==== Sys2Proof/Laws/Step.lean ====
section
/-! SUPPORT. The laws of a step: what stands next, what an instruction can do in general, and that register accesses keep
the canonical form of the buffers. -/

namespace Sys2Proof.Machine

/-- A step with nothing pending (R67). -/
theorem step_idle (s : State) (h : s.pending = []) : step s = .next s := by
  simp only [step, h]

/-- A step with a power-on reset next (R250). -/
theorem step_powerOn (s : State) (rest : List HostEvent) (h : s.pending = .powerOn :: rest) :
    step s = .next { State.resetAt s.base with pending := rest } := by
  simp only [step, h]; rfl

/-- A step with an access next (R66). -/
theorem step_access (s : State) (a : BusAccess) (rest : List HostEvent) (h : s.pending = .access a :: rest) :
    step s = match decode s.base a with
      | .ok i => exec i (accept rest s)
      | .error r => answerReject r (accept rest s) := by
  cases hd : decode s.base a <;> simp only [step, h, performAccess, hd]

/-- A run of one step more. -/
theorem run_of_step {s u : State} (n : Nat) (h : step s = .next u) :
    Sys2Proof.core.run (n + 1) s = Sys2Proof.core.run n u := by
  have hs : Sys2Proof.core.step s = .next u := h
  simp only [Host.Core.run, hs]

/-- A run that completes takes its first step and goes on from there. -/
theorem step_of_run {s t : State} {n : Nat} (h : Sys2Proof.core.run (n + 1) s = .next t) :
    ∃ u, step s = .next u ∧ Sys2Proof.core.run n u = .next t := by
  cases hs : step s with
  | next u => exact ⟨u, rfl, by rwa [run_of_step n hs] at h⟩
  | fault f =>
    have hc : Sys2Proof.core.step s = .fault f := hs
    simp only [Host.Core.run, hc, reduceCtorEq] at h
  | refused r =>
    have hc : Sys2Proof.core.step s = .refused r := hs
    simp only [Host.Core.run, hc, reduceCtorEq] at h

/-- What a LOOPBACK can do (R200, R48). -/
theorem loopback_cases (s : State) :
    (∃ i, i < s.txLen.toNat ∧ s.txBuf.read i = none ∧ execLoopback s = .fault (.unwrittenEntry .txBuf i)) ∨
    (∃ bs, s.txBuf.readFrom 0 s.txLen.toNat = .ok bs ∧ bs.length = s.txLen.toNat ∧
      execLoopback s =
        .next (finish false false 0#8 { s with rxBuf := s.rxBuf.writeFrom 0 bs, rxLen := s.txLen })) := by
  cases h : s.txBuf.readFrom 0 s.txLen.toNat with
  | error i =>
    obtain ⟨-, h2, h3⟩ := Memory.readFrom_error _ _ _ _ h
    exact .inl ⟨i, by omega, h3, by simp only [execLoopback, h]⟩
  | ok bs => exact .inr ⟨bs, rfl, ((Memory.readFrom_eq_ok _ _ _ _).mp h).1, by simp only [execLoopback, h]⟩

/-- What a REG_READ can do: the value of the location, or the fault of a buffer entry that has none (R205, R48). -/
theorem regRead_cases (l : Loc) (s : State) :
    (∃ v, readLoc s l = .ok v ∧ execRegRead l s = .next { s with response := some v }) ∨
    (∃ (b : Buffer) (i : Fin 256), readLoc s l = .error (.unwrittenEntry b i.val) ∧
      execRegRead l s = .fault (.unwrittenEntry b i.val) ∧
      (match b with
        | .txBuf => s.txBuf.read i.val = none
        | .rxBuf => s.rxBuf.read i.val = none
        | .wdata => s.wdata.read i.val = none
        | .rdata => s.rdata.read i.val = none)) := by
  have hx : execRegRead l s = match readLoc s l with
      | .error f => .fault f
      | .ok v => .next { s with response := some v } := rfl
  have entry : ∀ {w : Nat} (b : Buffer) (m : Memory w) (i : Nat),
      (∃ v, readEntry b m i = .ok v) ∨ (readEntry b m i = .error (.unwrittenEntry b i) ∧ m.read i = none) := by
    intro w b m i
    cases h : m.read i with
    | none => exact .inr ⟨by simp only [readEntry, h], rfl⟩
    | some v => exact .inl ⟨_, by simp only [readEntry, h]; rfl⟩
  cases hl : readLoc s l with
  | ok v => exact .inl ⟨v, rfl, by rw [hx, hl]⟩
  | error f =>
    refine .inr ?_
    cases l with
    | plain p =>
      cases p <;> simp only [readLoc, readPlain, reduceCtorEq] at hl
      case txBuf i =>
        rcases entry .txBuf s.txBuf i.val with ⟨v, hv⟩ | ⟨hv, hn⟩ <;> rw [hv] at hl <;> cases hl
        exact ⟨.txBuf, i, rfl, by rw [hx]; simp only [readLoc, readPlain, hv], hn⟩
      case rxBuf i =>
        rcases entry .rxBuf s.rxBuf i.val with ⟨v, hv⟩ | ⟨hv, hn⟩ <;> rw [hv] at hl <;> cases hl
        exact ⟨.rxBuf, i, rfl, by rw [hx]; simp only [readLoc, readPlain, hv], hn⟩
      case wdata i =>
        rcases entry .wdata s.wdata i.val with ⟨v, hv⟩ | ⟨hv, hn⟩ <;> rw [hv] at hl <;> cases hl
        exact ⟨.wdata, i, rfl, by rw [hx]; simp only [readLoc, readPlain, hv], hn⟩
      case rdata i =>
        rcases entry .rdata s.rdata i.val with ⟨v, hv⟩ | ⟨hv, hn⟩ <;> rw [hv] at hl <;> cases hl
        exact ⟨.rdata, i, rfl, by rw [hx]; simp only [readLoc, readPlain, hv], hn⟩
    | _ => simp only [readLoc, reduceCtorEq] at hl

/-- A register write keeps the canonical form of every buffer (R44, R45). -/
theorem writePlain_wf (s : State) (v : BusWord) (l : PlainLoc) :
    (s.rxBuf.wf → (writePlain s v l).rxBuf.wf) ∧ (s.wdata.wf → (writePlain s v l).wdata.wf) ∧
      (writePlain s v l).txBuf = s.txBuf ∧ (writePlain s v l).rdata = s.rdata := by
  cases l with
  | rxBuf i => exact ⟨fun h => Memory.wf_write _ _ _ h i.isLt, id, rfl, rfl⟩
  | wdata i => exact ⟨id, fun h => Memory.wf_write _ _ _ h i.isLt, rfl, rfl⟩
  | _ => exact ⟨id, id, rfl, rfl⟩

/-- A BUILD row is `build` of its function (R130). -/
theorem exec_buildOf (fn : Fn) (s : State) : exec (buildOf fn) s = build fn s := by cases fn <;> rfl

/-- A PARSE row is `parse` of its function (R160). -/
theorem exec_parseOf (fn : Fn) (s : State) : exec (parseOf fn) s = parse fn s := by cases fn <;> rfl

/-- An instruction is a BUILD, a PARSE, or one of the nine others. -/
theorem instr_split (i : Instr) :
    (∃ fn, i = buildOf fn) ∨ (∃ fn, i = parseOf fn) ∨ i = .crcInit ∨ i = .loopback ∨ (∃ v, i = .crcByte v) ∨
      (∃ v, i = .crcSet v) ∨ i = .crcRead ∨ (∃ v, i = .softReset v) ∨ (∃ v, i = .statusClear v) ∨
      (∃ l v, i = .regWrite l v) ∨ ∃ l, i = .regRead l := by
  cases i
  case buildRc => exact .inl ⟨.rc, rfl⟩
  case buildRdi => exact .inl ⟨.rdi, rfl⟩
  case buildRhr => exact .inl ⟨.rhr, rfl⟩
  case buildRir => exact .inl ⟨.rir, rfl⟩
  case buildWsc => exact .inl ⟨.wsc, rfl⟩
  case buildWsr => exact .inl ⟨.wsr, rfl⟩
  case buildWmr => exact .inl ⟨.wmr, rfl⟩
  case parseRc => exact .inr (.inl ⟨.rc, rfl⟩)
  case parseRdi => exact .inr (.inl ⟨.rdi, rfl⟩)
  case parseRhr => exact .inr (.inl ⟨.rhr, rfl⟩)
  case parseRir => exact .inr (.inl ⟨.rir, rfl⟩)
  case parseWsc => exact .inr (.inl ⟨.wsc, rfl⟩)
  case parseWsr => exact .inr (.inl ⟨.wsr, rfl⟩)
  case parseWmr => exact .inr (.inl ⟨.wmr, rfl⟩)
  all_goals simp

/-- What an instruction that completes can do to the state, form by form: the one list that every frame and every
invariant is read off. -/
inductive ExecNext (s : State) : Instr → State → Prop
  | crcInit : ExecNext s .crcInit (finish false false 0#8 { s with crcAcc := Config.crcInitial })
  | crcByte (v) : ExecNext s (.crcByte v) { s with crcAcc := crcStep s.crcAcc (v.extractLsb' 0 8) }
  | crcSet (v) : ExecNext s (.crcSet v) { s with crcAcc := v.extractLsb' 0 16 }
  | crcRead : ExecNext s .crcRead { s with response := some (s.crcAcc.setWidth 32) }
  | buildRefused (fn) (args : buildArgsOk fn s.count s.value = false) :
      ExecNext s (buildOf fn) (raise .badArgument false 0#8 s)
  | buildSent (fn body) (args : buildArgsOk fn s.count s.value = true) (hbody : requestBody fn s = .ok body)
      (len : body.length + 2 ≤ 255) : ExecNext s (buildOf fn) (sendFrame body s)
  | parseBadArgument (fn) : ExecNext s (parseOf fn) (raise .badArgument false 0#8 (withCrcChk 0#32 s))
  | parseShort (fn) : ExecNext s (parseOf fn) (raise .invalidResponse false 0#8 (withCrcChk 0#32 s))
  | parseFailed (fn code trail exc c)
      (hcode : code ∈ [ResultCode.crcMismatch, .addressMismatch, .modbusException, .functionMismatch, .bytecountMismatch])
      (hexc : code ≠ .modbusException → exc = 0#8) :
      ExecNext s (parseOf fn) (raise code trail exc (withCrcChk c s))
  | parseDelivered (fn trail f c) (count : CountInRange fn s.count) :
      ExecNext s (parseOf fn) (deliver fn trail f (withCrcChk c s))
  | loopback (bs) (hread : s.txBuf.readFrom 0 s.txLen.toNat = .ok bs) (len : bs.length = s.txLen.toNat) :
      ExecNext s .loopback
        (finish false false 0#8 { s with rxBuf := s.rxBuf.writeFrom 0 bs, rxLen := s.txLen })
  | softReset (v) (bit : v.getLsbD 0 = true) : ExecNext s (.softReset v) (softResetOp s)
  | softResetIdle (v) (bit : v.getLsbD 0 = false) : ExecNext s (.softReset v) s
  | statusClear (v) (bit : v.getLsbD 31 = true) :
      ExecNext s (.statusClear v) { s with status := s.status.clearSticky }
  | statusClearIdle (v) (bit : v.getLsbD 31 = false) : ExecNext s (.statusClear v) s
  | regWrite (l v) : ExecNext s (.regWrite l v) (writePlain s v l)
  | regRead (l v) (value : readLoc s l = .ok v) : ExecNext s (.regRead l) { s with response := some v }

/-- An instruction that completes does one of these. -/
theorem exec_next {i : Instr} {s t : State} (h : exec i s = .next t) : ExecNext s i t := by
  rcases instr_split i with
    ⟨fn, rfl⟩ | ⟨fn, rfl⟩ | rfl | rfl | ⟨v, rfl⟩ | ⟨v, rfl⟩ | rfl | ⟨v, rfl⟩ | ⟨v, rfl⟩ | ⟨l, v, rfl⟩ | ⟨l, rfl⟩
  · rw [exec_buildOf] at h
    rcases build_cases fn s with ⟨ha, hb⟩ | ⟨j, -, -, -, -, hb⟩ | ⟨body, ha, hbody, hl, hb⟩ <;> rw [hb] at h <;> cases h
    · exact .buildRefused fn ha
    · exact .buildSent fn body ha hbody hl
  · rw [exec_parseOf] at h
    rcases parse_cases fn s with ⟨-, hp⟩ | ⟨-, -, -, hp⟩ | ⟨i, -, -, -, hp⟩ | ⟨f, -, hc, -, -, -, hp⟩ <;> rw [hp] at h <;>
      cases h
    · exact .parseBadArgument fn
    · exact .parseShort fn
    · rcases judge_cases fn (decide (f.length < s.rxLen.toNat)) f s with ⟨code, exc, h1, h2, hj⟩ | ⟨-, -, -, -, hj⟩ <;>
        rw [hj]
      · exact .parseFailed fn code _ exc _ h1 h2
      · exact .parseDelivered fn _ f _ hc
  · cases h; exact .crcInit
  · change execLoopback s = _ at h
    rcases loopback_cases s with ⟨i, -, -, hl⟩ | ⟨bs, h1, h2, hl⟩ <;> rw [hl] at h <;> cases h
    exact .loopback bs h1 h2
  · cases h; exact .crcByte v
  · cases h; exact .crcSet v
  · cases h; exact .crcRead
  · cases hv : v.getLsbD 0 with
    | true => simp only [exec, execSoftReset, hv, if_true] at h; cases h; exact .softReset v hv
    | false => simp only [exec, execSoftReset, hv, Bool.false_eq_true, if_false] at h; cases h; exact .softResetIdle v hv
  · cases hv : v.getLsbD 31 with
    | true => simp only [exec, execStatusClear, hv, if_true] at h; cases h; exact .statusClear v hv
    | false =>
      simp only [exec, execStatusClear, hv, Bool.false_eq_true, if_false] at h; cases h; exact .statusClearIdle v hv
  · cases h; exact .regWrite l v
  · change execRegRead l s = _ at h
    rcases regRead_cases l s with ⟨v, hv, hr⟩ | ⟨b, i, -, hr, -⟩ <;> rw [hr] at h <;> cases h
    exact .regRead l v hv

/-- An instruction either completes or reads an entry that has no value (R48). -/
theorem exec_completes_or_faults (i : Instr) (s : State) : (∃ t, exec i s = .next t) ∨
    (∃ fn j, i = buildOf fn ∧ j < s.count.toNat ∧ s.count.toNat ≤ 123 ∧ s.wdata.read j = none ∧
      exec i s = .fault (.unwrittenEntry .wdata j)) ∨
    (∃ fn j, i = parseOf fn ∧ j < 256 ∧ s.rxBuf.read j = none ∧ exec i s = .fault (.unwrittenEntry .rxBuf j)) ∨
    (∃ j, i = .loopback ∧ j < s.txLen.toNat ∧ s.txBuf.read j = none ∧ exec i s = .fault (.unwrittenEntry .txBuf j)) ∨
    ∃ (l : Loc) (b : Buffer) (j : Fin 256), i = .regRead l ∧ exec i s = .fault (.unwrittenEntry b j.val) ∧
      (match b with
        | .txBuf => s.txBuf.read j.val = none
        | .rxBuf => s.rxBuf.read j.val = none
        | .wdata => s.wdata.read j.val = none
        | .rdata => s.rdata.read j.val = none) := by
  rcases instr_split i with
    ⟨fn, rfl⟩ | ⟨fn, rfl⟩ | rfl | rfl | ⟨v, rfl⟩ | ⟨v, rfl⟩ | rfl | ⟨v, rfl⟩ | ⟨v, rfl⟩ | ⟨l, v, rfl⟩ | ⟨l, rfl⟩
  · rw [exec_buildOf]
    rcases build_cases fn s with ⟨-, hb⟩ | ⟨j, -, h1, h2, h3, hb⟩ | ⟨body, -, -, -, hb⟩
    · exact .inl ⟨_, hb⟩
    · exact .inr (.inl ⟨fn, j, rfl, h1, h2, h3, hb⟩)
    · exact .inl ⟨_, hb⟩
  · rw [exec_parseOf]
    rcases parse_cases fn s with ⟨-, hp⟩ | ⟨-, -, -, hp⟩ | ⟨j, h1, h2, -, hp⟩ | ⟨f, -, -, -, -, -, hp⟩
    · exact .inl ⟨_, hp⟩
    · exact .inl ⟨_, hp⟩
    · exact .inr (.inr (.inl ⟨fn, j, rfl, h1, h2, hp⟩))
    · exact .inl ⟨_, hp⟩
  · exact .inl ⟨_, rfl⟩
  · rcases loopback_cases s with ⟨j, h1, h2, hl⟩ | ⟨bs, -, -, hl⟩
    · exact .inr (.inr (.inr (.inl ⟨j, rfl, h1, h2, hl⟩)))
    · exact .inl ⟨_, hl⟩
  · exact .inl ⟨_, rfl⟩
  · exact .inl ⟨_, rfl⟩
  · exact .inl ⟨_, rfl⟩
  · exact .inl ⟨_, rfl⟩
  · exact .inl ⟨_, rfl⟩
  · exact .inl ⟨_, rfl⟩
  · rcases regRead_cases l s with ⟨v, -, hr⟩ | ⟨b, j, -, hr, hn⟩
    · exact .inl ⟨_, hr⟩
    · exact .inr (.inr (.inr (.inr ⟨l, b, j, rfl, hr, hn⟩)))

/-- No instruction is refused. -/
theorem exec_ne_refused (i : Instr) (s : State) (r : Refusal) : exec i s ≠ .refused r := by
  rcases exec_completes_or_faults i s with
    ⟨t, h⟩ | ⟨_, _, -, -, -, -, h⟩ | ⟨_, _, -, -, -, h⟩ | ⟨_, -, -, -, h⟩ | ⟨_, _, _, -, h, -⟩ <;> rw [h] <;> simp

end Sys2Proof.Machine
end

