-- ==== Sys2Proof/Tests/Slice0.lean ====
section
/-! SUPPORT. Tests: well-formedness, decoding of words written out from R81 and R84, the vectors of spec/95_test_vectors.md
(CR, B, P- and K are their ids, P1 to P7 its programs), and for every statement with hypotheses a witness that meets them. -/

namespace Sys2Proof.Tests

open Sys2Proof.Machine

-- One theorem after the other: each `decide +kernel` waits for the one before it, which would hold a thread apiece.
set_option Elab.async false

/-! ### Helpers -/

/-- The outcome is a next state of which `p` holds. -/
def nextHas (o : Host.Outcome State Fault Refusal) (p : State → Bool) : Bool :=
  match o with
  | .next t => p t
  | _ => false

theorem exists_of_nextHas {o : Host.Outcome State Fault Refusal} {p : State → Bool} (h : nextHas o p = true) :
    ∃ t, o = .next t ∧ p t = true := by
  cases o with
  | next t => exact ⟨t, rfl, h⟩
  | _ => cases h

/-- The outcome is the fault of an unwritten entry. -/
def faultsAt (o : Host.Outcome State Fault Refusal) (b : Buffer) (i : Nat) : Bool :=
  match o with
  | .fault f => f == .unwrittenEntry b i
  | _ => false

/-- The outcome is the refusal `r`. -/
def refusedAs (o : Host.Outcome State Fault Refusal) (r : Refusal) : Bool :=
  match o with
  | .refused q => q == r
  | _ => false

/-- `s` with these events standing next. -/
def pend (s : State) (es : List HostEvent) : State := { s with pending := es }

/-- `WR off, v` from `s` (R96). -/
def wr (s : State) (off : Nat) (v : BusWord) : Host.Outcome State Fault Refusal :=
  step (pend s [.access (busWrite s.base off v)])

/-- `RD off` from `s` (R96). -/
def rd (s : State) (off : Nat) : Host.Outcome State Fault Refusal :=
  step (pend s [.access (busRead s.base off)])

/-- A state with SLAVE_ADDR, START_ADDR, COUNT and VALUE written. -/
def params (a : Byte) (start n v : Word) : State :=
  { State.reset with slaveAddr := a, startAddr := start, count := n, value := v }

/-- A state with a received response and an RDATA from an earlier command, as the vectors of §2.3 start from. -/
def received (a : Byte) (n : Word) (bs : List Byte) : State :=
  { State.reset with
    slaveAddr := a
    count := n
    rxBuf := Memory.ofEntries 0 bs
    rxLen := BitVec.ofNat 9 bs.length
    rdata := Memory.fill [0x1111#16, 0x2222#16, 0x3333#16] }

/-- A state with STATUS given. -/
def withStatus (st : Status) (s : State) : State := { s with status := st }

/-- The bytes of TX_BUF[0..TX_LEN-1]. -/
def txBytes (t : State) : List (Option Byte) := (List.range t.txLen.toNat).map t.txBuf.read

/-- A built request: its bytes, CRC_CHK and STATUS. -/
def built (bs : List Byte) (chk status : BusWord) (t : State) : Bool :=
  txBytes t == bs.map some && t.crcChk == chk && t.status.toWord == status

/-- A parsed response: STATUS, CRC_CHK, and the first entries of RDATA. -/
def parsed (status chk : BusWord) (ws : List Word) (t : State) : Bool :=
  t.status.toWord == status && t.crcChk == chk && (List.range ws.length).map t.rdata.read == ws.map some

/-! ### Well-formedness: an ill-formed term for each check -/

theorem test_wf_write_hole : (Instr.regWrite (.hole 0x034) 0).wf = true := by decide
theorem test_wf_write_no_hole : (Instr.regWrite (.hole 0x030) 0).wf = false := by decide
theorem test_wf_write_buffer_is_no_hole : (Instr.regWrite (.hole 0x400) 0).wf = false := by decide
theorem test_wf_write_misaligned_hole : (Instr.regWrite (.hole 0x035) 0).wf = false := by decide
theorem test_wf_read_beyond_window : (Instr.regRead (.plain (.hole 0x2000))).wf = false := by decide
theorem test_wf_read_crcAcc : (Instr.regRead .crcAcc).wf = false := by decide

/-! ### Decoding: every constructor from a word written out bit by bit (R80, R81, R84), rejections by name (R62, R83) -/

theorem test_decode_crcInit : decodeCmd 0b00000000000000000000000000000001#32 = some .crcInit := by decide
theorem test_decode_buildRc : decodeCmd 0b00000000000000000000000100010000#32 = some .buildRc := by decide
theorem test_decode_buildRdi : decodeCmd 0b00000000000000000000001000010000#32 = some .buildRdi := by decide
theorem test_decode_buildRhr : decodeCmd 0b00000000000000000000001100010000#32 = some .buildRhr := by decide
theorem test_decode_buildRir : decodeCmd 0b00000000000000000000010000010000#32 = some .buildRir := by decide
theorem test_decode_buildWsc : decodeCmd 0b00000000000000000000010100010000#32 = some .buildWsc := by decide
theorem test_decode_buildWsr : decodeCmd 0b00000000000000000000011000010000#32 = some .buildWsr := by decide
theorem test_decode_buildWmr : decodeCmd 0b00000000000000000001000000010000#32 = some .buildWmr := by decide
theorem test_decode_parseRc : decodeCmd 0b00000000000000000000000100100000#32 = some .parseRc := by decide
theorem test_decode_parseRdi : decodeCmd 0b00000000000000000000001000100000#32 = some .parseRdi := by decide
theorem test_decode_parseRhr : decodeCmd 0b00000000000000000000001100100000#32 = some .parseRhr := by decide
theorem test_decode_parseRir : decodeCmd 0b00000000000000000000010000100000#32 = some .parseRir := by decide
theorem test_decode_parseWsc : decodeCmd 0b00000000000000000000010100100000#32 = some .parseWsc := by decide
theorem test_decode_parseWsr : decodeCmd 0b00000000000000000000011000100000#32 = some .parseWsr := by decide
theorem test_decode_parseWmr : decodeCmd 0b00000000000000000001000000100000#32 = some .parseWmr := by decide
theorem test_decode_loopback : decodeCmd 0b00000000000000000000000000110000#32 = some .loopback := by decide

/-- FN 0x0F, OP 0x00, RSV ≠ 0, FN with OP 0x01, FN 0x07, FN with bit 7, an unused OP (R83, K13 to K19). -/
theorem test_decode_illegal_commands :
    [0x00000F10#32, 0x00000000#32, 0x00010001#32, 0x00000101#32, 0x00000710#32, 0x00008310#32, 0x00000040#32].all
      (fun v => decodeCmd v == none) = true := by decide

theorem test_decode_crcByte : decodeWrite (locAt 0x014) 0x31#32 = .ok (.crcByte 0x31#32) := by rfl
theorem test_decode_crcSet : decodeWrite (locAt 0x010) 0x5678#32 = .ok (.crcSet 0x5678#32) := by rfl
theorem test_decode_crcRead : decode 0x4000 (busRead 0x4000 0x010) = .ok .crcRead :=
  decode_busRead 0x4000 0x010 (by decide) (by decide)
theorem test_decode_softReset : decodeWrite (locAt 0x004) 1#32 = .ok (.softReset 1#32) := by rfl
theorem test_decode_statusClear : decodeWrite (locAt 0x00C) 0x80000000#32 = .ok (.statusClear 0x80000000#32) := by rfl
theorem test_decode_regWrite : decode 0 (busWrite 0 0xFFC 7#32) = .ok (.regWrite (.wdata 255) 7#32) :=
  (decode_busWrite 0 0xFFC 7#32 (by decide) (by decide)).trans
    (congrArg (decodeWrite · 7#32) (show locAt 0xFFC = .plain (.wdata 255) by decide +kernel))
theorem test_decode_regRead : decode 0x2000 (busRead 0x2000 0x1FFC) = .ok (.regRead (.plain (.hole 0x1FFC))) :=
  decode_busRead 0x2000 0x1FFC (by decide) (by decide)

theorem test_table_command : decodeTableWord 32 0x310 = some .buildRhr := by decide
theorem test_table_offset : decodeTableWord 16 0x00C = some (.statusClear 0#32) := by decide

/-- K21: a byte write to 0x018 has no step. -/
theorem test_step_byte_access :
    refusedAs (step { State.reset with pending := [.access ⟨.write, .byte, .single, 0x018, 0⟩] }) .narrowAccess = true := by
  decide

theorem test_step_misaligned_access :
    refusedAs (step { State.reset with pending := [.access ⟨.read, .word, .single, 0x01A, 0⟩] }) .misalignedAccess = true := by
  decide

/-- Log 20: a burst of 0 beats is refused at BASE and inside the window alike. -/
theorem test_step_empty_burst :
    [0x000, 0x018].all (fun ad =>
      refusedAs (step (pend State.reset [.access ⟨.read, .word, .burst 0, ad, 0⟩])) .burstAccess) = true := by
  decide

/-- The host's question: does a step run the instruction of a word placed with `withFetchWord`? (B26) -/
theorem test_step_withFetchWord :
    nextHas (step (State.reset.withFetchWord 32 0x310)) (fun t => t.status.toWord == 0x80000009#32) = true := by
  decide +kernel

/-! ### CRC (§2.1) -/

theorem test_crc_check_value : crc16 [0x31, 0x32, 0x33, 0x34, 0x35, 0x36, 0x37, 0x38, 0x39] = 0x4B37#16 := by
  decide +kernel -- CR15

theorem test_crc_T1 : crc16 [0x01, 0x03, 0x00, 0x01, 0x00, 0x03] = 0x0B54#16 := by decide +kernel -- CR13

/-- CR10: the eight iterations of one step. -/
theorem test_crc_iterations :
    (List.range 9).map (fun n => crcIters n 0xFFFE#16) =
      [0xFFFE, 0x7FFF, 0x9FFE, 0x4FFF, 0x87FE, 0x43FF, 0x81FE, 0x40FF, 0x807E] := by decide +kernel

/-- CR21 -/
theorem test_crcInit : nextHas (wr { State.reset with crcAcc := 0x0B54#16 } 0x008 0x00000001#32)
    (fun t => t.crcAcc == 0xFFFF#16 && t.status.toWord == 0x00000001#32) = true := by decide +kernel

/-- CR25: STICKY is not cleared by a command. -/
theorem test_crcInit_keeps_sticky :
    nextHas (wr (withStatus ⟨.badCommand, false, false, 0, 0, true⟩ State.reset) 0x008 0x00000001#32)
      (fun t => t.status.toWord == 0x80000001#32) = true := by decide +kernel

/-- CR9: bits [31:8] are ignored. -/
theorem test_crcByte : nextHas (wr State.reset 0x014 0xFFFFFF01#32) (fun t => t.crcAcc == 0x807E#16) = true := by
  decide +kernel

/-- CR7 -/
theorem test_crcByte_plain_shifts :
    nextHas (wr { State.reset with crcAcc := 0x00FF#16 } 0x014 0xFF#32) (fun t => t.crcAcc == 0x0000#16) = true := by
  decide +kernel

/-- CR22 -/
theorem test_crcSet : nextHas (wr State.reset 0x010 0x12345678#32)
    (fun t => t.crcAcc == 0x5678#16 && t.status == Status.reset) = true := by decide +kernel

/-- CR23 -/
theorem test_crcRead : nextHas (rd State.reset 0x010) (fun t => t.response == some 0x0000FFFF#32) = true := by
  decide +kernel

/-! ### BUILD (§2.2) -/

/-- B2 -/
theorem test_buildRc : nextHas (wr (params 0x01 0x0000 2000 0) 0x008 0x0110#32)
    (built [0x01, 0x01, 0x00, 0x00, 0x07, 0xD0, 0x3F, 0xA6] 0xA63FA63F#32 0x00000001#32) = true := by decide +kernel

/-- B17 -/
theorem test_buildRc_bad : nextHas (wr (params 0x01 0x0000 2001 0) 0x008 0x0110#32)
    (fun t => t.status.toWord == 0x80000009#32 && t.txLen == 0 && t.txBuf == [] && t.crcChk == 0) = true := by
  decide +kernel

/-- B3 -/
theorem test_buildRdi : nextHas (wr (params 0x01 0x0000 10 0) 0x008 0x0210#32)
    (built [0x01, 0x02, 0x00, 0x00, 0x00, 0x0A, 0xF8, 0x0D] 0x0DF80DF8#32 0x00000001#32) = true := by decide +kernel

/-- B8b: the slave address and the start address are unchecked. -/
theorem test_buildRhr : nextHas (wr (params 0xFF 0xFFFF 1 0) 0x008 0x0310#32)
    (built [0xFF, 0x03, 0xFF, 0xFF, 0x00, 0x01, 0x91, 0xF0] 0xF091F091#32 0x00000001#32) = true := by decide +kernel

/-- B19 -/
theorem test_buildRhr_bad : nextHas (wr (params 0x01 0x0000 126 0) 0x008 0x0310#32)
    (fun t => t.status.toWord == 0x80000009#32) = true := by decide +kernel

/-- B8a -/
theorem test_buildRir : nextHas (wr (params 0x01 0x0000 125 0) 0x008 0x0410#32)
    (built [0x01, 0x04, 0x00, 0x00, 0x00, 0x7D, 0x30, 0x2B] 0x2B302B30#32 0x00000001#32) = true := by decide +kernel

/-- B11 -/
theorem test_buildWsc : nextHas (wr (params 0x01 0x0000 0 0xFF00) 0x008 0x0510#32)
    (built [0x01, 0x05, 0x00, 0x00, 0xFF, 0x00, 0x8C, 0x3A] 0x3A8C3A8C#32 0x00000001#32) = true := by decide +kernel

/-- B23: 0x00FF is not mapped to ON. -/
theorem test_buildWsc_bad : nextHas (wr (params 0x01 0x0000 0 0x00FF) 0x008 0x0510#32)
    (fun t => t.status.toWord == 0x80000009#32) = true := by decide +kernel

/-- B15: COUNT = 0 is irrelevant. -/
theorem test_buildWsr : nextHas (wr (params 0x01 0x0001 0 0x0003) 0x008 0x0610#32)
    (built [0x01, 0x06, 0x00, 0x01, 0x00, 0x03, 0x98, 0x0B] 0x0B980B98#32 0x00000001#32) = true := by decide +kernel

/-- The state of B9, with two words in WDATA. -/
def twoWords (n : Word) : State :=
  { params 0x01 0x0001 n 0 with wdata := Memory.ofEntries 0 [0x000A#16, 0x0102#16] }

/-- B9 -/
theorem test_buildWmr : nextHas (wr (twoWords 2) 0x008 0x1010#32)
    (built [0x01, 0x10, 0x00, 0x01, 0x00, 0x02, 0x04, 0x00, 0x0A, 0x01, 0x02, 0x92, 0x30] 0x30923092#32 0x00000001#32) =
      true := by decide +kernel

/-- R48: WDATA[2] has no value. -/
theorem test_buildWmr_unwritten : faultsAt (wr (twoWords 3) 0x008 0x1010#32) .wdata 2 = true := by decide +kernel

/-! ### PARSE (§2.3) -/

/-- P-17 -/
theorem test_parseRc : nextHas (wr (received 0x01 1 [0x01, 0x01, 0x01, 0x01, 0x90, 0x48]) 0x008 0x0120#32)
    (parsed 0x00010021#32 0x48904890#32 [0x0001, 0, 0]) = true := by decide +kernel

/-- P-20: nine coils need two bytes. -/
theorem test_parseRc_bytecount :
    nextHas (wr (received 0x01 9 [0x01, 0x01, 0x01, 0xFF, 0x11, 0xC8]) 0x008 0x0120#32)
      (parsed 0x80000006#32 0xC811C811#32 [0x1111, 0x2222, 0x3333]) = true := by decide +kernel

/-- P-22 -/
theorem test_parseRdi :
    nextHas (wr (received 0x01 10 [0x01, 0x02, 0x02, 0xCD, 0x01, 0x2C, 0xE8]) 0x008 0x0220#32)
      (parsed 0x00020021#32 0xE82CE82C#32 [0x00CD, 0x0001, 0]) = true := by decide +kernel

/-- P-23 -/
theorem test_parseRdi_off : nextHas (wr (received 0x01 1 [0x01, 0x02, 0x01, 0x00, 0xA1, 0x88]) 0x008 0x0220#32)
    (parsed 0x00010001#32 0x88A188A1#32 [0, 0, 0]) = true := by decide +kernel

/-- The response of P-1. -/
def threeWords : List Byte := [0x01, 0x03, 0x06, 0x00, 0x01, 0x00, 0x02, 0x00, 0x03, 0xFD, 0x74]

/-- P-2: a byte after the frame sets TRAIL. -/
theorem test_parseRhr : nextHas (wr (received 0x01 3 (threeWords ++ [0xAA])) 0x008 0x0320#32)
    (parsed 0x00030011#32 0x74FD74FD#32 [0x0001, 0x0002, 0x0003, 0]) = true := by decide +kernel

/-- P-15 -/
theorem test_parseRir : nextHas (wr (received 0x01 1 [0x01, 0x04, 0x02, 0x00, 0x0A, 0x39, 0x37]) 0x008 0x0420#32)
    (parsed 0x00010001#32 0x37393739#32 [0x000A, 0, 0]) = true := by decide +kernel

/-- P-24 -/
theorem test_parseWsc :
    nextHas (wr (received 0x01 0 [0x01, 0x05, 0x00, 0x00, 0xFF, 0x00, 0x8C, 0x3A]) 0x008 0x0520#32)
      (parsed 0x00020001#32 0x3A8C3A8C#32 [0x0000, 0xFF00, 0]) = true := by decide +kernel

/-- P-25: a 5-byte exception to a write. -/
theorem test_parseWsc_exception : nextHas (wr (received 0x01 0 [0x01, 0x85, 0x01, 0x83, 0x50]) 0x008 0x0520#32)
    (parsed 0x80000104#32 0x50835083#32 [0x1111, 0x2222, 0x3333]) = true := by decide +kernel

/-- P-26 -/
theorem test_parseWsr :
    nextHas (wr (received 0x01 0 [0x01, 0x06, 0x00, 0x10, 0x12, 0x34, 0x85, 0x78]) 0x008 0x0620#32)
      (parsed 0x00020001#32 0x78857885#32 [0x0010, 0x1234, 0]) = true := by decide +kernel

/-- P-28 -/
theorem test_parseWsr_function :
    nextHas (wr (received 0x01 0 [0x01, 0x05, 0x00, 0x00, 0xFF, 0x00, 0x8C, 0x3A]) 0x008 0x0620#32)
      (parsed 0x80000005#32 0x3A8C3A8C#32 [0x1111, 0x2222, 0x3333]) = true := by decide +kernel

/-- P-29 -/
theorem test_parseWmr :
    nextHas (wr (received 0x01 0 [0x01, 0x10, 0x00, 0x01, 0x00, 0x02, 0x10, 0x08]) 0x008 0x1020#32)
      (parsed 0x00020001#32 0x08100810#32 [0x0001, 0x0002, 0]) = true := by decide +kernel

/-- P-31: the request itself, looped back. -/
theorem test_parseWmr_request :
    nextHas (wr (received 0x01 0
      [0x01, 0x10, 0x00, 0x01, 0x00, 0x02, 0x04, 0x00, 0x0A, 0x01, 0x02, 0x92, 0x30]) 0x008 0x1020#32)
      (parsed 0x80000017#32 0x00040810#32 [0x1111, 0x2222, 0x3333]) = true := by decide +kernel

/-- The results that P-3, P-4, P-5, P-6, P-7, P-8 and P-16 list, in that order, by STATUS[3:0]; P-16 is an exception of
another function, and its COUNT plays no part. -/
theorem test_parse_order :
    [threeWords.dropLast ++ [0x75], [0x02, 0x03, 0x06, 0x00, 0x01, 0x00, 0x02, 0x00, 0x03, 0xE9, 0x84],
      [0x01, 0x83, 0x02, 0xC0, 0xF1], [0x02, 0x83, 0x02, 0x30, 0xF1],
      [0x01, 0x04, 0x06, 0x00, 0x01, 0x00, 0x02, 0x00, 0x03, 0xBC, 0x92],
      [0x01, 0x03, 0x04, 0x00, 0x01, 0x00, 0x02, 0x2A, 0x32], [0x01, 0x84, 0x00, 0x43, 0x00]].map
        (fun f => (List.range 10).filter (fun n => nextHas (wr (received 0x01 3 f) 0x008 0x0320#32)
          (fun t => t.status.toWord.toNat % 16 == n))) = [[7], [3], [4], [3], [5], [6], [4]] := by decide +kernel

/-- P-9 to P-12: too short for any frame, too short for this one, COUNT = 0, RX_LEN = 257. -/
theorem test_parse_early :
    [received 0x01 3 [0x01, 0x03, 0x06, 0x00], received 0x01 3 threeWords.dropLast, received 0x01 0 threeWords,
      { received 0x01 3 threeWords with rxLen := 257#9 }].map
        (fun s => [0x80000002#32, 0x80000009#32].filter (fun w => nextHas (wr s 0x008 0x0320#32)
          (parsed w 0x00000000#32 [0x1111, 0x2222, 0x3333]))) =
      [[0x80000002#32], [0x80000002#32], [0x80000009#32], [0x80000009#32]] := by decide +kernel

/-- R160: a request looped back whose start address has 3 in its high byte ends short of the byte count check, not of the
CRC check, so R200's remark on read requests holds only of other addresses (notes/assumptions/17.md). -/
theorem test_parseRhr_of_request :
    nextHas (wr (received 0x01 1 [0x01, 0x03, 0x03, 0x00, 0x00, 0x01, 0x84, 0x4E]) 0x008 0x0320#32)
      (parsed 0x80000006#32 0x4E844E84#32 [0x1111, 0x2222, 0x3333]) = true := by decide +kernel

/-! ### Control and register access (§2.4) -/

/-- The state after B13. -/
def afterB13 : State :=
  { params 0x01 0x0010 0 0x1234 with
    txBuf := Memory.ofEntries 0 [0x01, 0x06, 0x00, 0x10, 0x12, 0x34, 0x85, 0x78]
    txLen := 8#9
    crcChk := 0x78857885#32
    status := ⟨.ok, false, false, 0, 0, false⟩ }

/-- K1 -/
theorem test_loopback : nextHas (wr afterB13 0x008 0x30#32)
    (fun t => (List.range 9).map t.rxBuf.read ==
        [some 0x01, some 0x06, some 0x00, some 0x10, some 0x12, some 0x34, some 0x85, some 0x78, none] &&
      t.rxLen == 8 && t.status.toWord == 0x00000001#32) = true := by decide +kernel

/-- K2 -/
theorem test_loopback_empty : nextHas (wr State.reset 0x008 0x30#32)
    (fun t => t.rxLen == 0 && t.rxBuf == [] && t.status.toWord == 0x00000001#32) = true := by decide +kernel

/-- K3 -/
theorem test_softReset :
    nextHas (wr (withStatus ⟨.crcMismatch, false, false, 0, 0, true⟩ { afterB13 with crcAcc := 0x0B54#16 }) 0x004 1#32)
      (fun t => t.crcAcc == 0xFFFF#16 && t.status.toWord == 0 && t.txLen == 0 && t.crcChk == 0 && t.slaveAddr == 0 &&
        t.txBuf.read 1 == some 0x06#8) = true := by decide +kernel

/-- K4 -/
theorem test_softReset_zero : nextHas (wr afterB13 0x004 0#32) (fun t => t == afterB13) = true := by decide +kernel

/-- K5 -/
theorem test_statusClear :
    nextHas (wr (withStatus ⟨.modbusException, false, false, 2, 0, true⟩ State.reset) 0x00C 0x80000000#32)
      (fun t => t.status.toWord == 0x00000204#32) = true := by decide +kernel

/-- K6 -/
theorem test_statusClear_zero :
    nextHas (wr (withStatus ⟨.modbusException, false, false, 2, 0, true⟩ State.reset) 0x00C 0x7FFFFFFF#32)
      (fun t => t.status.toWord == 0x80000204#32) = true := by decide +kernel

/-- K7 -/
theorem test_regWrite : nextHas (wr State.reset 0x018 0xABCD0111#32) (fun t => t.slaveAddr == 0x11#8) = true := by
  decide +kernel

/-- K11: TX_LEN is read-only. -/
theorem test_regWrite_readOnly : nextHas (wr State.reset 0x028 5#32) (fun t => t == State.reset) = true := by
  decide +kernel

/-- K10 -/
theorem test_regRead : nextHas (rd State.reset 0x000) (fun t => t.response == some 0x4D425231#32) = true := by
  decide +kernel

/-- K20 -/
theorem test_regRead_unwritten : faultsAt (rd State.reset 0x400) .txBuf 0 = true := by decide +kernel

/-- K13: BAD_COMMAND, and nothing else changes. -/
theorem test_badCommand : nextHas (wr afterB13 0x008 0x00000F10#32)
    (fun t => t.status.toWord == 0x80000008#32 && t == withStatus t.status afterB13) = true := by decide +kernel

/-! ### Witnesses: for every statement with hypotheses, a state and operands that meet all of them together -/

/-- The state after reset meets the invariant. -/
theorem witness_Inv : State.reset.Inv where
  txWf := by decide
  rxWf := by decide
  wdataWf := by decide
  rdataWf := by decide
  status := by constructor <;> decide
  base := by decide
  txLen := by decide
  txFilled := fun i hi => absurd hi (Nat.not_lt_zero i)
  rdataWhole := .inl rfl
  rcntFilled := fun i hi => absurd hi (Nat.not_lt_zero i)

/-- A reset state whose four buffers are written throughout. -/
def filledState : State :=
  { State.reset with
    txBuf := Memory.fill [], rxBuf := Memory.fill [], wdata := Memory.fill [], rdata := Memory.fill [] }

/-- For EveryInstructionCompletesOnWrittenBuffers and LoopbackCompletesUnderTheInvariant. -/
theorem witness_filled : filledState.Inv ∧ Filled filledState.txBuf 256 ∧ Filled filledState.rxBuf 256 ∧
    Filled filledState.wdata 256 ∧ Filled filledState.rdata 256 := by
  have h8 : ∀ {w : Nat} i, i < 256 → ((Memory.fill ([] : List (BitVec w))).read i).isSome :=
    fun i hi => Memory.isSome_read_fill [] i hi
  exact ⟨⟨Memory.wf_fill _ (by decide), Memory.wf_fill _ (by decide), Memory.wf_fill _ (by decide),
    Memory.wf_fill _ (by decide), witness_Inv.status, by decide, by decide, fun i hi => h8 i (Nat.lt_of_lt_of_le hi (by decide)),
    .inr h8, fun i hi => h8 i (Nat.lt_of_lt_of_le hi (by decide))⟩, h8, h8, h8, h8⟩

theorem witness_EncodedInstructionDecodesToItself :
    (Instr.regWrite (.hole 0x3FC) 1).wf = true ∧ (Instr.regWrite (.rxBuf 255) 1).wf = true ∧
      (Instr.regRead (.plain (.hole 0x1400))).wf = true := by decide

theorem witness_DecodedAccessIsTheOneEncoded :
    decode 0x2000 ⟨.read, .word, .single, 0x2000 + 0x1FFC, 0xABCD#32⟩ = .ok (.regRead (.plain (.hole 0x1FFC))) :=
  decode_window 0x2000 0x1FFC .read 0xABCD#32 (by decide) (by decide)

/-- The first and the last offset of either hole. -/
theorem witness_WindowOffsetsNameEntriesAndHoles : ∀ off ∈ [0x034, 0x3FC, 0x1400, 0x1FFC],
    off % 4 = 0 ∧ ((0x034 ≤ off ∧ off ≤ 0x3FC) ∨ (0x1400 ≤ off ∧ off ≤ 0x1FFC)) ∧
      (∃ s : State, s.pending = [.access (busRead s.base off)]) ∧
      ∃ s : State, s.pending = [.access (busWrite s.base off 1)] := by
  intro off h
  refine ⟨?_, ?_, ⟨pend State.reset [.access (busRead 0 off)], rfl⟩, pend State.reset [.access (busWrite 0 off 1)], rfl⟩
  all_goals simp only [List.mem_cons, List.not_mem_nil, or_false] at h; omega

theorem witness_StepRunsTheDecodedInstruction :
    (∃ (s : State) (a : BusAccess), s.pending = [.access a] ∧ decode s.base a = .ok (.crcByte 0x31#32)) ∧
      State.reset.pending = [] :=
  ⟨⟨pend State.reset [.access (busWrite 0 0x014 0x31#32)], busWrite 0 0x014 0x31#32, rfl,
    decode_busWrite 0 0x014 0x31#32 (by decide) (by decide)⟩, rfl⟩

/-- FN 0x0F, RSV ≠ 0, and the all-zero word. -/
theorem witness_IllegalCommandWordRaisesBadCommand : ∀ v ∈ [0x00000F10#32, 0x00010001#32, 0x00000000#32],
    (∃ s : State, s.pending = [.access (busWrite s.base 0x008 v)]) ∧ ∀ i, (v, i) ∉ commandWords := by
  refine fun v hv => ⟨⟨pend State.reset [.access (busWrite 0 0x008 v)], rfl⟩, fun i hi => ?_⟩
  have h : v ∈ commandWords.map Prod.fst := List.mem_map.mpr ⟨(v, i), hi, rfl⟩
  clear hi
  simp only [List.mem_cons, List.not_mem_nil, or_false] at hv
  rcases hv with rfl | rfl | rfl <;> revert h <;> decide

/-- An access for each ground of refusal, the straddling of either edge among them, and one that is none. -/
theorem witness_UndefinedAccessesAreRefused : ∀ a ∈ ([⟨.read, .byte, .single, 0x2018, 0⟩, ⟨.write, .half, .single, 0x201A, 0⟩,
    ⟨.write, .word, .locked, 0x2018, 0⟩, ⟨.read, .word, .burst 4, 0x1FF4, 0⟩, ⟨.read, .word, .single, 0x3FFE, 0⟩,
    ⟨.read, .word, .single, 0x1FFE, 0⟩, ⟨.write, .word, .single, 0x3FFC, 0⟩] : List BusAccess),
    ∃ s : State, s.base % 0x2000 = 0 ∧ s.pending = [.access a] ∧ a.addr < s.base + 0x2000 ∧ s.base < a.addr + a.span := by
  refine fun a ha => ⟨pend (State.resetAt 0x2000) [.access a], Nat.mod_self 0x2000, rfl, ?_⟩
  revert a
  decide

/-- The words just below and just above the window. -/
theorem witness_AccessOutsideTheWindowHasNoEffect : ∀ a ∈ [busRead 0x1FFC 0, busWrite 0x4000 0 1],
    ∃ s : State, s.pending = [.access a] ∧ (a.addr + a.span ≤ s.base ∨ s.base + 0x2000 ≤ a.addr) := by
  refine fun a ha => ⟨pend (State.resetAt 0x2000) [.access a], rfl, ?_⟩
  revert a
  decide

theorem witness_ReadAccessesHaveNoSideEffect : ∃ (s t : State) (a : BusAccess), s.pending = [.access a] ∧
    step s = .next t ∧ a.dir = .read :=
  have h : nextHas (rd State.reset 0x000) (fun _ => true) = true := by decide +kernel
  have ⟨t, ht, _⟩ := exists_of_nextHas h
  ⟨_, t, busRead 0 0x000, rfl, ht, rfl⟩

theorem witness_PowerOnResetValues : ∃ s : State, s.pending = [.powerOn] ∧ s.txBuf ≠ [] :=
  ⟨pend afterB13 [.powerOn], rfl, by decide⟩

theorem witness_SoftResetResetsRegistersAndKeepsBuffers :
    (0xFFFFFFFF#32).toNat % 2 = 1 ∧ (0xFFFFFFFE#32).toNat % 2 = 0 := by decide

theorem witness_ResetMeetsTheInvariant : 0 % 0x2000 = 0 ∧ 0x40002000 % 0x2000 = 0 := by decide

theorem witness_EveryStepKeepsTheInvariant : ∃ s t : State, s.Inv ∧ step s = .next t ∧ t.txLen = 8 :=
  have hi : (pend (params 0x01 0x0001 3 0) [.access (busWrite 0 0x008 0x310#32)]).Inv :=
    { witness_Inv with }
  have h : nextHas (wr (params 0x01 0x0001 3 0) 0x008 0x310#32) (fun t => t.txLen == 8) = true := by decide +kernel
  have ⟨t, ht, hp⟩ := exists_of_nextHas h
  ⟨_, t, hi, ht, by simpa using hp⟩

theorem witness_CrcByteStreamComputesCrc16 : ∃ s : State, s.crcAcc = 0xFFFF#16 ∧
    s.pending = accessesOf s.base ([0x01#8, 0x03#8].map (fun b => Instr.crcByte (b.setWidth 32))) ++ [.powerOn] :=
  ⟨pend State.reset (accessesOf 0 ([0x01#8, 0x03#8].map (fun b => Instr.crcByte (b.setWidth 32))) ++ [.powerOn]), rfl, rfl⟩

/-- A stream of two bytes with a register write, a read and a failing command between them. -/
def mixedStream : List Instr :=
  [.crcByte 0x01#32, .regWrite .slaveAddr 0x01#32, .buildRhr, .regRead .status, .crcByte 0x03#32]

theorem witness_CrcStreamSurvivesOtherAccesses : ∃ s t : State, s.crcAcc = 0xFFFF#16 ∧
    (∀ i ∈ mixedStream, i.wf = true ∧ keepsCrcStream i = true) ∧ s.pending = accessesOf s.base mixedStream ++ [] ∧
    Sys2Proof.core.run mixedStream.length s = .next t :=
  have h : nextHas (Sys2Proof.core.run mixedStream.length (pend State.reset (accessesOf 0 mixedStream ++ [])))
    (fun _ => true) = true := by decide +kernel
  have ⟨t, ht, _⟩ := exists_of_nextHas h
  ⟨pend State.reset (accessesOf 0 mixedStream ++ []), t, rfl, by decide, rfl, ht⟩

/-- A CRC_BYTE, a SOFT_RESET with bit 0 clear and an illegal CMD word, each as the next access after a byte was fed. -/
theorem witness_EveryStepKeepsTheCrcStream :
    ∀ p ∈ [(busWrite 0 0x014 0x03#32, Except.ok (.crcByte 0x03#32)), (busWrite 0 0x004 0xFFFFFFFE#32, .ok (.softReset 0xFFFFFFFE#32)),
      (busWrite 0 0x008 0x00000F10#32, .error (.illegalCommand 0x00000F10#32))],
      ∃ s t : State, s.pending = [.access p.1] ∧ s.crcAcc = crc16 [0x01#8] ∧ step s = .next t ∧ decode s.base p.1 = p.2 ∧
        ∀ i, decode s.base p.1 = .ok i →
          i ≠ .crcInit ∧ (∀ v, i ≠ .crcSet v) ∧ (∀ v, i = .softReset v → v.getLsbD 0 = false) := by
  have step_of : ∀ a, nextHas (step (pend { State.reset with crcAcc := crc16 [0x01#8] } [.access a])) (fun _ => true) = true →
      ∃ t, step (pend { State.reset with crcAcc := crc16 [0x01#8] } [.access a]) = .next t :=
    fun a h => have ⟨t, ht, _⟩ := exists_of_nextHas h; ⟨t, ht⟩
  intro p hp
  simp only [List.mem_cons, List.not_mem_nil, or_false] at hp
  rcases hp with rfl | rfl | rfl
  · have hd := decode_busWrite 0 0x014 0x03#32 (by decide) (by decide)
    obtain ⟨t, ht⟩ := step_of (busWrite 0 0x014 0x03#32) (by decide +kernel)
    exact ⟨_, t, rfl, rfl, ht, hd, fun i hi => by cases hd.symm.trans hi; simp⟩
  · have hd := decode_busWrite 0 0x004 0xFFFFFFFE#32 (by decide) (by decide)
    obtain ⟨t, ht⟩ := step_of (busWrite 0 0x004 0xFFFFFFFE#32) (by decide +kernel)
    exact ⟨_, t, rfl, rfl, ht, hd, fun i hi => by cases hd.symm.trans hi; simp⟩
  · have hd := decode_busWrite 0 0x008 0x00000F10#32 (by decide) (by decide)
    obtain ⟨t, ht⟩ := step_of (busWrite 0 0x008 0x00000F10#32) (by decide +kernel)
    exact ⟨_, t, rfl, rfl, ht, hd, fun i hi => by cases hd.symm.trans hi⟩

theorem witness_FrameCommandsIgnoreTheAccumulator : ∀ i ∈ [Instr.buildWmr, .parseRc, .loopback],
    isCommand i = true ∧ i ≠ .crcInit := by decide

/-- The ends of the two COUNT ranges, and the values next to them, where BAD_ARGUMENT begins. -/
theorem witness_BuildReadRequests :
    (∀ n ∈ [(1, 2000), (2000, 2000), (1, 125), (125, 125)], 1 ≤ (params 0 0 (BitVec.ofNat 16 n.1) 0).count.toNat ∧
      (params 0 0 (BitVec.ofNat 16 n.1) 0).count.toNat ≤ n.2) ∧
    ∀ n ∈ [(0, 2000), (2001, 2000), (0, 125), (126, 125)], (params 0 0 (BitVec.ofNat 16 n.1) 0).count.toNat < 1 ∨
      n.2 < (params 0 0 (BitVec.ofNat 16 n.1) 0).count.toNat := by
  decide

theorem witness_BuildWriteSingleRequests :
    (params 1 0 0 0xFF00).value = 0xFF00#16 ∧ (params 1 0 0 0x0000).value = 0x0000#16 ∧
      (params 1 0 0 0x00FF).value ≠ 0xFF00#16 ∧ (params 1 0 0 0x00FF).value ≠ 0x0000#16 := by
  refine ⟨rfl, rfl, ?_, ?_⟩ <;> simp [params]

/-- One word, and the most that fit. -/
theorem witness_BuildWriteMultipleRequest : ∀ n ∈ [1, 123], ∃ (s : State) (ws : List Word), ws.length = n ∧
    ws.length = s.count.toNat ∧ 1 ≤ ws.length ∧ ws.length ≤ 123 ∧ ∀ j, j < ws.length → s.wdata.read j = ws[j]? := by
  intro n h
  have hn : 1 ≤ n ∧ n ≤ 123 := by simp only [List.mem_cons, List.not_mem_nil, or_false] at h; omega
  refine ⟨{ State.reset with
    count := BitVec.ofNat 16 n, wdata := Memory.ofEntries 0 (List.replicate n 0xA5C3#16) },
    List.replicate n 0xA5C3#16, by simp, ?_, by simp; omega, by simp; omega, ?_⟩
  · simp; omega
  · intro j _; simp [Memory.read_ofEntries]

/-- No word, one word too many, and a word without a value (its other clauses). -/
theorem witness_BuildWriteMultipleRequest_stops :
    (twoWords 0).count.toNat < 1 ∧ 123 < (twoWords 124).count.toNat ∧
      (1 ≤ (twoWords 3).count.toNat ∧ (twoWords 3).count.toNat ≤ 123 ∧ 2 < (twoWords 3).count.toNat ∧
        (twoWords 3).wdata.read 2 = none) := by decide

/-- The values next to each range, where BAD_ARGUMENT begins, and one in range that a BUILD takes. -/
theorem witness_BuildBadArgumentExactlyOutOfRange :
    ((0#16).toNat < 1 ∧ 2000 < (2001#16).toNat ∧ 125 < (126#16).toNat ∧ 123 < (124#16).toNat) ∧
    ((0x00FF#16).toNat ≠ 0xFF00 ∧ (0x00FF#16).toNat ≠ 0x0000) ∧
    ∃ t, exec (buildOf .rdi) (params 1 0 2000 0) = .next t :=
  have h : nextHas (exec (buildOf .rdi) (params 1 0 2000 0)) (fun _ => true) = true := by decide +kernel
  have ⟨t, ht, _⟩ := exists_of_nextHas h
  ⟨by decide +kernel, by decide +kernel, t, ht⟩

theorem witness_ParseArgumentErrors :
    256 < ({ State.reset with rxLen := 257#9 } : State).rxLen.toNat ∧ ¬ CountInRange .rc 0#16 ∧ ¬ CountInRange .rdi 2001#16 ∧
      ¬ CountInRange .rhr 126#16 := by
  refine ⟨by decide, ?_, ?_, ?_⟩ <;> simp [CountInRange]

/-- RX_LEN 256 and a COUNT that a write function does not read: a PARSE that completes without BAD_ARGUMENT. -/
theorem witness_ParseArgumentErrors_none : ∃ s t : State, s.rxLen.toNat ≤ 256 ∧ CountInRange .wsr s.count ∧
    s.count.toNat = 0 ∧ exec (parseOf .wsr) s = .next t :=
  have h : nextHas (exec (parseOf .wsr) { filledState with rxLen := 256#9 }) (fun _ => true) = true := by decide +kernel
  have ⟨t, ht, _⟩ := exists_of_nextHas h
  ⟨{ filledState with rxLen := 256#9 }, t, by decide, trivial, rfl, ht⟩

/-- Four bytes; and a read response one byte short of its frame (P-9, P-10). -/
theorem witness_ParseShortResponses :
    (received 1 3 [0x01, 0x03, 0x06, 0x00]).rxLen.toNat < 5 ∧ CountInRange .rhr 3#16 ∧
    (received 1 3 threeWords.dropLast).rxLen.toNat ≤ 256 ∧
    ∃ len, FrameLength .rhr (received 1 3 threeWords.dropLast).rxBuf len ∧
      (received 1 3 threeWords.dropLast).rxLen.toNat < len :=
  ⟨by decide, by simp [CountInRange], by decide,
    11, ⟨0x03#8, rfl, .inr (.inr ⟨by decide, rfl, 0x06#8, rfl, rfl⟩)⟩, by decide⟩

/-- The bytes that a buffer is given are the frame it holds. -/
theorem holdsFrame_ofEntries (bs : List Byte) : HoldsFrame (Memory.ofEntries 0 bs) bs := by
  intro i _; simp [Memory.read_ofEntries]

/-- A response for each result: P-3, P-4, P-5, P-7, P-8 and P-1. -/
theorem witness_ParseReportsTheFirstFailingCheck :
    CountInRange .rhr 3#16 ∧
    ∀ f ∈ [threeWords.dropLast ++ [0x75#8], [0x02, 0x03, 0x06, 0x00, 0x01, 0x00, 0x02, 0x00, 0x03, 0xE9, 0x84],
      [0x01, 0x83, 0x02, 0xC0, 0xF1], [0x01, 0x04, 0x06, 0x00, 0x01, 0x00, 0x02, 0x00, 0x03, 0xBC, 0x92],
      [0x01, 0x03, 0x04, 0x00, 0x01, 0x00, 0x02, 0x2A, 0x32], threeWords], Received .rhr f (received 1 3 f) := by
  refine ⟨by simp [CountInRange], ?_⟩
  have read6 : ∀ f : List Byte, f.length = 11 → f[1]? = some 0x03#8 → f[2]? = some 0x06#8 → Received .rhr f (received 1 3 f) :=
    fun f hl h1 h2 => ⟨holdsFrame_ofEntries f,
      ⟨0x03#8, by simp [received, Memory.read_ofEntries, h1],
        .inr (.inr ⟨by decide, rfl, 0x06#8, by simp [received, Memory.read_ofEntries, h2], hl⟩)⟩,
      by simp [received, hl], by simp [received, hl]⟩
  intro f hf
  simp only [List.mem_cons, List.not_mem_nil, or_false] at hf
  rcases hf with rfl | rfl | rfl | rfl | rfl | rfl
  · exact read6 _ rfl rfl rfl
  · exact read6 _ rfl rfl rfl
  · exact ⟨holdsFrame_ofEntries _, ⟨0x83#8, rfl, .inl ⟨by decide, rfl⟩⟩, by decide, by decide⟩
  · exact ⟨holdsFrame_ofEntries _, ⟨0x04#8, rfl, .inr (.inr ⟨by decide, rfl, 0x06#8, rfl, rfl⟩)⟩, by decide, by decide⟩
  · exact ⟨holdsFrame_ofEntries _, ⟨0x03#8, rfl, .inr (.inr ⟨by decide, rfl, 0x04#8, rfl, rfl⟩)⟩, by decide, by decide⟩
  · exact read6 _ rfl rfl rfl

/-- P-2: three words, and a byte after the frame. -/
theorem witness_ParseRegisterResponses : ∃ (s : State) (ws : List Word), ws.length = s.count.toNat ∧ 1 ≤ ws.length ∧
    ws.length ≤ 125 ∧
    let body := [s.slaveAddr, 0x03#8, BitVec.ofNat 8 (2 * ws.length)] ++ ws.flatMap bigEndian
    HoldsFrame s.rxBuf (body ++ crcTrailer (crc16 body)) ∧ body.length + 2 < s.rxLen.toNat ∧ s.rxLen.toNat ≤ 256 := by
  refine ⟨received 1 3 (threeWords ++ [0xAA]), [1, 2, 3], rfl, by decide, by decide, ?_, by decide, by decide⟩
  intro i hi
  have h : [(received 1 3 (threeWords ++ [0xAA])).slaveAddr, 0x03#8, BitVec.ofNat 8 6] ++
      ([1, 2, 3] : List Word).flatMap bigEndian ++ crcTrailer (crc16 ([0x01, 0x03#8, BitVec.ofNat 8 6] ++
        ([1, 2, 3] : List Word).flatMap bigEndian)) = threeWords := by decide +kernel
  have hi' : i < threeWords.length := by rw [← h]; exact hi
  have hb : i < 11 := hi'
  show _ = ([(received 1 3 (threeWords ++ [0xAA])).slaveAddr, 0x03#8, BitVec.ofNat 8 6] ++
      ([1, 2, 3] : List Word).flatMap bigEndian ++ crcTrailer (crc16 ([0x01, 0x03#8, BitVec.ofNat 8 6] ++
        ([1, 2, 3] : List Word).flatMap bigEndian)))[i]?
  rw [h]
  simp [received, Memory.read_ofEntries, List.getElem?_append, hi']

/-- P-19: nine coils in two bytes. -/
theorem witness_ParseBitResponses : ∃ (s : State) (b : Byte) (bs : List Byte), 1 ≤ s.count.toNat ∧ s.count.toNat ≤ 2000 ∧
    8 * bs.length < s.count.toNat ∧ s.count.toNat ≤ 8 * (bs.length + 1) ∧
    let body := [s.slaveAddr, 0x01#8, BitVec.ofNat 8 (bs.length + 1)] ++ b :: bs
    HoldsFrame s.rxBuf (body ++ crcTrailer (crc16 body)) ∧ body.length + 2 ≤ s.rxLen.toNat ∧ s.rxLen.toNat ≤ 256 := by
  have h : [0x01#8, 0x01#8, 0x02#8, 0xFF#8, 0x01#8] ++ crcTrailer (crc16 [0x01#8, 0x01#8, 0x02#8, 0xFF#8, 0x01#8]) =
      [0x01, 0x01, 0x02, 0xFF, 0x01, 0x39, 0xCC] := by decide +kernel
  refine ⟨received 1 9 [0x01, 0x01, 0x02, 0xFF, 0x01, 0x39, 0xCC], 0xFF#8, [0x01#8], by decide, by decide, by decide, by decide,
    ?_, by decide, by decide⟩
  show HoldsFrame _ ([0x01#8, 0x01#8, 0x02#8, 0xFF#8, 0x01#8] ++ crcTrailer (crc16 [0x01#8, 0x01#8, 0x02#8, 0xFF#8, 0x01#8]))
  rw [h]
  exact holdsFrame_ofEntries _

/-- P-26: the echo of B13. -/
theorem witness_ParseWriteResponses : ∃ (s : State) (w1 w2 : Word),
    let body := [s.slaveAddr, 0x06#8] ++ bigEndian w1 ++ bigEndian w2
    HoldsFrame s.rxBuf (body ++ crcTrailer (crc16 body)) ∧ 8 ≤ s.rxLen.toNat ∧ s.rxLen.toNat ≤ 256 := by
  have h : [0x01#8, 0x06#8] ++ bigEndian 0x0010 ++ bigEndian 0x1234 ++
      crcTrailer (crc16 ([0x01#8, 0x06#8] ++ bigEndian 0x0010 ++ bigEndian 0x1234)) =
        [0x01, 0x06, 0x00, 0x10, 0x12, 0x34, 0x85, 0x78] := by decide +kernel
  refine ⟨received 1 0 [0x01, 0x06, 0x00, 0x10, 0x12, 0x34, 0x85, 0x78], 0x0010, 0x1234, ?_, by decide, by decide⟩
  show HoldsFrame _ ([0x01#8, 0x06#8] ++ bigEndian 0x0010 ++ bigEndian 0x1234 ++
      crcTrailer (crc16 ([0x01#8, 0x06#8] ++ bigEndian 0x0010 ++ bigEndian 0x1234)))
  rw [h]
  exact holdsFrame_ofEntries _

/-- A PARSE that delivers (P-1), one that fails (P-3). -/
theorem witness_ParseFrameAndRepetition :
    (∃ t, exec (parseOf .rhr) (received 1 3 threeWords) = .next t ∧ t.status.result = .ok) ∧
    ∃ t, exec (parseOf .rhr) (received 1 3 (threeWords.dropLast ++ [0x75])) = .next t ∧ t.status.result ≠ .ok :=
  have h1 : nextHas (exec (parseOf .rhr) (received 1 3 threeWords)) (fun t => t.status.result == .ok) = true := by
    decide +kernel
  have h2 : nextHas (exec (parseOf .rhr) (received 1 3 (threeWords.dropLast ++ [0x75]))) (fun t => t.status.result != .ok) =
      true := by decide +kernel
  have ⟨t, ht, hp⟩ := exists_of_nextHas h1
  have ⟨u, hu, hq⟩ := exists_of_nextHas h2
  ⟨⟨t, ht, by simpa using hp⟩, u, hu, by simpa using hq⟩

/-- Two states that differ in the registers a PARSE does not read. -/
theorem witness_ParseRestsOnItsOperandsAlone : ∃ s s' t : State, s'.rxBuf = s.rxBuf ∧ s'.rxLen = s.rxLen ∧
    s'.slaveAddr = s.slaveAddr ∧ s'.count = s.count ∧ s'.startAddr ≠ s.startAddr ∧ s'.crcAcc ≠ s.crcAcc ∧
    exec (parseOf .rhr) s = .next t :=
  have ⟨t, ht, _⟩ := witness_ParseFrameAndRepetition.1
  ⟨received 1 3 threeWords, { received 1 3 threeWords with startAddr := 7, crcAcc := 0 }, t, rfl, rfl, rfl, rfl, by decide,
    by decide, ht⟩

theorem witness_LoopbackCopiesTheRequest : ∃ bs : List Byte, bs.length = afterB13.txLen.toNat ∧ HoldsFrame afterB13.txBuf bs :=
  ⟨[0x01, 0x06, 0x00, 0x10, 0x12, 0x34, 0x85, 0x78], rfl, holdsFrame_ofEntries _⟩

theorem witness_WriteSingleRoundTrip : ∃ s : State, (s.value = 0xFF00#16 ∨ s.value = 0x0000#16) ∧
    s.pending = accessesOf s.base [.buildWsc, .loopback, .parseWsc] ++ [.powerOn] :=
  ⟨pend (params 1 7 0 0xFF00) (accessesOf 0 [.buildWsc, .loopback, .parseWsc] ++ [.powerOn]), .inl rfl, rfl⟩

theorem witness_RegReadResults : filledState.txBuf.read 255 = some 0 ∧ filledState.rxBuf.read 255 = some 0 ∧
    filledState.wdata.read 255 = some 0 ∧ filledState.rdata.read 255 = some 0 := by decide +kernel

theorem witness_RegisterReadsBackItsWrite : ∀ p ∈ [(PlainLoc.rxBuf 255, 8), (.wdata 255, 16), (.rxLen, 9)],
    ((p.1 = .slaveAddr ∨ ∃ i, p.1 = .rxBuf i) ∧ p.2 = 8) ∨
      ((p.1 = .startAddr ∨ p.1 = .count ∨ p.1 = .value ∨ ∃ j, p.1 = .wdata j) ∧ p.2 = 16) ∨ (p.1 = .rxLen ∧ p.2 = 9) := by
  intro p hp
  simp only [List.mem_cons, List.not_mem_nil, or_false] at hp
  rcases hp with rfl | rfl | rfl
  · exact .inl ⟨.inr ⟨255, rfl⟩, rfl⟩
  · exact .inr (.inl ⟨.inr (.inr (.inr ⟨255, rfl⟩)), rfl⟩)
  · exact .inr (.inr ⟨rfl, rfl⟩)

/-- The host's reads, BUILD.WMR and LOOPBACK. -/
theorem witness_ReadingAnUnwrittenEntryFaults :
    (State.reset.txBuf.read 255 = none ∧ State.reset.rxBuf.read 255 = none ∧ State.reset.wdata.read 255 = none ∧
      State.reset.rdata.read 255 = none) ∧
    (1 ≤ (twoWords 123).count.toNat ∧ (twoWords 123).count.toNat ≤ 123 ∧ 122 < (twoWords 123).count.toNat ∧
      (twoWords 123).wdata.read 122 = none) ∧
    (0 < ({ State.reset with txLen := 1#9 } : State).txLen.toNat ∧ State.reset.txBuf.read 0 = none) := by decide

/-- PARSE without byte 1, without byte 2, and without the last byte of the frame. -/
theorem witness_ReadingAnUnwrittenEntryFaults_parse :
    CountInRange .rhr 3#16 ∧ (5 ≤ (11#9).toNat ∧ (11#9).toNat ≤ 256) ∧
    (received 1 3 [0x01]).rxBuf.read 1 = none ∧
    ((received 1 3 [0x01, 0x03]).rxBuf.read 1 = some 0x03#8 ∧ isRead .rhr = true ∧
      (received 1 3 [0x01, 0x03]).rxBuf.read 2 = none) ∧
    FrameLength .rhr (received 1 3 threeWords.dropLast).rxBuf 11 ∧ (received 1 3 threeWords.dropLast).rxBuf.read 10 = none :=
  ⟨by simp [CountInRange], by decide, rfl, ⟨rfl, rfl, rfl⟩,
    ⟨0x03#8, rfl, .inr (.inr ⟨by decide, rfl, 0x06#8, rfl, rfl⟩)⟩, rfl⟩

/-- A command that sets STICKY; a STATUS_CLEAR and a SOFT_RESET step that clear it. -/
theorem witness_StickyIsClearedOnlyByClearOrReset :
    (∃ s t : State, isCommand .buildRhr = true ∧ exec .buildRhr s = .next t ∧ t.status.sticky = true) ∧
    ∀ p ∈ [(0x00C, 0x80000000#32), (0x004, 0x00000001#32)], ∃ s t : State, step s = .next t ∧ s.status.sticky = true ∧
      t.status.sticky = false := by
  have h : nextHas (exec .buildRhr State.reset) (fun t => t.status.sticky) = true := by decide +kernel
  obtain ⟨t, ht, hp⟩ := exists_of_nextHas h
  refine ⟨⟨_, t, rfl, ht, hp⟩, ?_⟩
  have hc : nextHas (wr (withStatus ⟨.badCommand, false, false, 0, 0, true⟩ State.reset) 0x00C 0x80000000#32)
      (fun t => !t.status.sticky) = true := by decide +kernel
  have hr : nextHas (wr (withStatus ⟨.badCommand, false, false, 0, 0, true⟩ State.reset) 0x004 0x00000001#32)
      (fun t => !t.status.sticky) = true := by decide +kernel
  intro p hp
  simp only [List.mem_cons, List.not_mem_nil, or_false] at hp
  rcases hp with rfl | rfl
  · obtain ⟨u, hu, hq⟩ := exists_of_nextHas hc
    exact ⟨_, u, hu, rfl, by simpa using hq⟩
  · obtain ⟨u, hu, hq⟩ := exists_of_nextHas hr
    exact ⟨_, u, hu, rfl, by simpa using hq⟩

/-- For CommandsOverwriteStatus and FailedCommandsChangeOnlyStatus: a BUILD and a PARSE that fail. -/
theorem witness_FailedCommandsChangeOnlyStatus :
    (∃ s t : State, isCommand .buildWsc = true ∧ exec .buildWsc s = .next t ∧ t.status.result ≠ .ok) ∧
    ∃ s t : State, isCommand .parseRhr = true ∧ exec .parseRhr s = .next t ∧ t.status.result ≠ .ok ∧ t.crcChk ≠ s.crcChk :=
  have h : nextHas (exec .buildWsc (params 1 0 0 0x00FF)) (fun t => t.status.result != .ok) = true := by decide +kernel
  have h2 : nextHas (exec .parseRhr (received 1 3 (threeWords.dropLast ++ [0x75])))
    (fun t => t.status.result != .ok && t.crcChk != 0) = true := by decide +kernel
  have ⟨t, ht, hp⟩ := exists_of_nextHas h
  have ⟨u, hu, hq⟩ := exists_of_nextHas h2
  have hq := Bool.and_eq_true_iff.mp hq
  ⟨⟨_, t, rfl, ht, by simpa using hp⟩, _, u, rfl, hu, by simpa using hq.1, show u.crcChk ≠ 0#32 by simpa using hq.2⟩

/-- An instruction of each kind that writes something. -/
theorem witness_EachRegisterHasOnlyItsWriters :
    (∃ t, exec (.crcByte 1) State.reset = .next t ∧ t.crcAcc ≠ State.reset.crcAcc) ∧
    (∃ t, exec .loopback afterB13 = .next t ∧ t.rxBuf ≠ afterB13.rxBuf) ∧
    ∃ t, exec .parseWsr { afterB13 with rxBuf := afterB13.txBuf, rxLen := 8 } = .next t ∧ t.rdata ≠ afterB13.rdata :=
  have h1 : nextHas (exec (.crcByte 1) State.reset) (fun t => t.crcAcc != State.reset.crcAcc) = true := by decide +kernel
  have h2 : nextHas (exec .loopback afterB13) (fun t => t.rxBuf != afterB13.rxBuf) = true := by decide +kernel
  have h3 : nextHas (exec .parseWsr { afterB13 with rxBuf := afterB13.txBuf, rxLen := 8 })
    (fun t => t.rdata != afterB13.rdata) = true := by decide +kernel
  have ⟨t, ht, hp⟩ := exists_of_nextHas h1
  have ⟨u, hu, hq⟩ := exists_of_nextHas h2
  have ⟨v, hv, hr⟩ := exists_of_nextHas h3
  ⟨⟨t, ht, by simpa using hp⟩, ⟨u, hu, by simpa using hq⟩, v, hv, by simpa using hr⟩

end Sys2Proof.Tests
end

section
/-! PROOFS. The state family (spec/10_state.md): the invariant, the unwritten entries, STATUS, the writers of each register,
and what a step runs. The frame lemmas of the composed operations come first, then the invariant operation by operation,
then each obligation. -/

namespace Sys2Proof.Machine

variable {s t : State}

/-! ### Runs of entries -/

/-- No entry stands below 0. -/
theorem filled_zero {w : Nat} (m : Memory w) : Filled m 0 := fun i hi => absurd hi (Nat.not_lt_zero i)

/-- A filled run holds no entry without a value. -/
theorem Filled.read_ne_none {w : Nat} {m : Memory w} {n i : Nat} (h : Filled m n) (hi : i < n) : m.read i ≠ none :=
  Option.isSome_iff_ne_none.mp (h i hi)

/-- A buffer without entries is canonical. -/
theorem wf_nil {w : Nat} : Memory.wf ([] : Memory w) := ⟨List.Pairwise.nil, by simp⟩

/-- A shorter run of a filled one is filled. -/
theorem Filled.mono {w : Nat} {m : Memory w} {n k : Nat} (h : Filled m n) (hk : k ≤ n) : Filled m k :=
  fun i hi => h i (Nat.lt_of_lt_of_le hi hk)

/-- Reads from entry 0 on succeed only over entries that all have values. -/
theorem filled_of_readFrom {w : Nat} {m : Memory w} {n : Nat} {vs : List (BitVec w)} (h : m.readFrom 0 n = .ok vs) :
    Filled m n := by
  obtain ⟨hl, hr⟩ := (Memory.readFrom_eq_ok m n 0 vs).mp h
  intro i hi
  have hread := hr i hi
  rw [Nat.zero_add] at hread
  simp only [hread, isSome_getElem?, hl, hi]

/-- Writes from entry 0 on leave values in all the entries they cover. -/
theorem filled_writeFrom {w : Nat} (m : Memory w) (vs : List (BitVec w)) : Filled (m.writeFrom 0 vs) vs.length := by
  intro i hi
  rw [Memory.read_writeFrom, if_pos ⟨Nat.zero_le i, by omega⟩]
  simpa using hi

/-! ### The frames of the composed operations -/

section SendFrame
variable (body : List Byte) (s : State)

@[simp] theorem sendFrame_status : (sendFrame body s).status = s.status.report .ok false false 0#8 0#8 := rfl
@[simp] theorem sendFrame_crcAcc : (sendFrame body s).crcAcc = s.crcAcc := rfl
@[simp] theorem sendFrame_slaveAddr : (sendFrame body s).slaveAddr = s.slaveAddr := rfl
@[simp] theorem sendFrame_startAddr : (sendFrame body s).startAddr = s.startAddr := rfl
@[simp] theorem sendFrame_count : (sendFrame body s).count = s.count := rfl
@[simp] theorem sendFrame_value : (sendFrame body s).value = s.value := rfl
@[simp] theorem sendFrame_rxLen : (sendFrame body s).rxLen = s.rxLen := rfl
@[simp] theorem sendFrame_rxBuf : (sendFrame body s).rxBuf = s.rxBuf := rfl
@[simp] theorem sendFrame_wdata : (sendFrame body s).wdata = s.wdata := rfl
@[simp] theorem sendFrame_rdata : (sendFrame body s).rdata = s.rdata := rfl
@[simp] theorem sendFrame_base : (sendFrame body s).base = s.base := rfl
@[simp] theorem sendFrame_pending : (sendFrame body s).pending = s.pending := rfl
@[simp] theorem sendFrame_response : (sendFrame body s).response = s.response := rfl
end SendFrame

section Deliver
variable (fn : Fn) (trail : Bool) (f : List Byte) (s : State)

@[simp] theorem deliver_status : (deliver fn trail f s).status =
    s.status.report .ok trail (coil0Of fn f) 0#8 (BitVec.ofNat 8 (decodedWords fn s.count f).length) := rfl
@[simp] theorem deliver_crcAcc : (deliver fn trail f s).crcAcc = s.crcAcc := rfl
@[simp] theorem deliver_slaveAddr : (deliver fn trail f s).slaveAddr = s.slaveAddr := rfl
@[simp] theorem deliver_startAddr : (deliver fn trail f s).startAddr = s.startAddr := rfl
@[simp] theorem deliver_count : (deliver fn trail f s).count = s.count := rfl
@[simp] theorem deliver_value : (deliver fn trail f s).value = s.value := rfl
@[simp] theorem deliver_txLen : (deliver fn trail f s).txLen = s.txLen := rfl
@[simp] theorem deliver_rxLen : (deliver fn trail f s).rxLen = s.rxLen := rfl
@[simp] theorem deliver_crcChk : (deliver fn trail f s).crcChk = s.crcChk := rfl
@[simp] theorem deliver_txBuf : (deliver fn trail f s).txBuf = s.txBuf := rfl
@[simp] theorem deliver_rxBuf : (deliver fn trail f s).rxBuf = s.rxBuf := rfl
@[simp] theorem deliver_wdata : (deliver fn trail f s).wdata = s.wdata := rfl
@[simp] theorem deliver_rdata : (deliver fn trail f s).rdata = Memory.fill (decodedWords fn s.count f) := rfl
@[simp] theorem deliver_base : (deliver fn trail f s).base = s.base := rfl
@[simp] theorem deliver_pending : (deliver fn trail f s).pending = s.pending := rfl
@[simp] theorem deliver_response : (deliver fn trail f s).response = s.response := rfl
end Deliver

section WithCrcChk
variable (c : BusWord) (s : State)

@[simp] theorem withCrcChk_status : (withCrcChk c s).status = s.status := rfl
@[simp] theorem withCrcChk_crcAcc : (withCrcChk c s).crcAcc = s.crcAcc := rfl
@[simp] theorem withCrcChk_slaveAddr : (withCrcChk c s).slaveAddr = s.slaveAddr := rfl
@[simp] theorem withCrcChk_startAddr : (withCrcChk c s).startAddr = s.startAddr := rfl
@[simp] theorem withCrcChk_count : (withCrcChk c s).count = s.count := rfl
@[simp] theorem withCrcChk_value : (withCrcChk c s).value = s.value := rfl
@[simp] theorem withCrcChk_txLen : (withCrcChk c s).txLen = s.txLen := rfl
@[simp] theorem withCrcChk_rxLen : (withCrcChk c s).rxLen = s.rxLen := rfl
@[simp] theorem withCrcChk_crcChk : (withCrcChk c s).crcChk = c := rfl
@[simp] theorem withCrcChk_txBuf : (withCrcChk c s).txBuf = s.txBuf := rfl
@[simp] theorem withCrcChk_rxBuf : (withCrcChk c s).rxBuf = s.rxBuf := rfl
@[simp] theorem withCrcChk_wdata : (withCrcChk c s).wdata = s.wdata := rfl
@[simp] theorem withCrcChk_rdata : (withCrcChk c s).rdata = s.rdata := rfl
@[simp] theorem withCrcChk_base : (withCrcChk c s).base = s.base := rfl
@[simp] theorem withCrcChk_pending : (withCrcChk c s).pending = s.pending := rfl
@[simp] theorem withCrcChk_response : (withCrcChk c s).response = s.response := rfl
end WithCrcChk

/-! ### The invariant, operation by operation -/

/-- STATUS after a reset is legal (R250). -/
theorem reset_legal : Status.reset.Legal where
  exc _ := rfl
  coil0 _ := rfl
  rcnt _ := rfl
  rcntBound := Nat.zero_le _
  trail _ := rfl
  none _ := rfl

/-- Clearing STICKY leaves a legal STATUS legal (R203). -/
theorem Status.Legal.clearSticky {st : Status} (h : st.Legal) : st.clearSticky.Legal :=
  { h with none := fun _ => rfl }

/-- The reset state meets the invariant at every aligned BASE (R63, R250). -/
theorem resetAt_inv {base : Nat} (h : base % 0x2000 = 0) : (State.resetAt base).Inv where
  txWf := wf_nil
  rxWf := wf_nil
  wdataWf := wf_nil
  rdataWf := wf_nil
  status := reset_legal
  base := h
  txLen := Nat.zero_le _
  txFilled := filled_zero _
  rdataWhole := .inl rfl
  rcntFilled := filled_zero _

/-- The invariant speaks of neither `pending` nor `response`. -/
theorem State.Inv.accept (hi : s.Inv) (rest : List HostEvent) : (accept rest s).Inv := { hi with }

/-- The invariant does not speak of CRC_CHK. -/
theorem State.Inv.withCrcChk (hi : s.Inv) (c : BusWord) : (withCrcChk c s).Inv := { hi with }

/-- Ending a command with an error keeps the invariant (R221, R222). -/
theorem State.Inv.raise (hi : s.Inv) {code : ResultCode} {trail : Bool} {exc : Byte}
    (hexc : code ≠ .modbusException → exc = 0#8) (hnone : code ≠ .none)
    (htrail : code ∈ [ResultCode.none, .badCommand, .badArgument, .invalidResponse] → trail = false) :
    (raise code trail exc s).Inv :=
  { hi with
    status := report_error_legal s.status code trail exc hexc hnone htrail
    rcntFilled := filled_zero _ }

/-- Ending a command with OK keeps the invariant where RDATA has the entries that RCNT counts (R32, R222). -/
theorem State.Inv.finish (hi : s.Inv) (trail coil0 : Bool) {rcnt : Byte} (hb : rcnt.toNat ≤ 250)
    (hf : Filled s.rdata rcnt.toNat) : (finish trail coil0 rcnt s).Inv :=
  { hi with
    status := report_ok_legal s.status trail coil0 rcnt hb
    rcntFilled := hf }

/-- Sending a request of at most 255 bytes keeps the invariant: TX_LEN counts the bytes just written (R40, R43, R130). -/
theorem State.Inv.sendFrame (hi : s.Inv) {body : List Byte} (hl : body.length + 2 ≤ 255) : (sendFrame body s).Inv := by
  have hlen : (BitVec.ofNat 9 (frameOf body).length).toNat = (frameOf body).length := by
    rw [frameOf_length, BitVec.toNat_ofNat]
    omega
  have hsize : (frameOf body).length ≤ 255 := by rw [frameOf_length]; exact hl
  refine State.Inv.finish ?_ false false (Nat.zero_le _) (filled_zero _)
  exact
    { hi with
      txWf := Memory.wf_writeFrom _ _ 0 hi.txWf (by simp only [Config.bufSize]; omega)
      txLen := hlen.trans_le hsize
      txFilled := (filled_writeFrom s.txBuf (frameOf body)).mono hlen.le }

/-- Delivering the outputs of a PARSE keeps the invariant: RDATA is whole, and RCNT counts at most 250 (R32, R178). -/
theorem State.Inv.deliver (hi : s.Inv) {fn : Fn} (trail : Bool) (f : List Byte) (hc : CountInRange fn s.count) :
    (deliver fn trail f s).Inv := by
  have hlen := decodedWords_length fn s.count f hc
  have hrcnt : (BitVec.ofNat 8 (decodedWords fn s.count f).length).toNat ≤ 250 := by
    rw [BitVec.toNat_ofNat]
    omega
  have hfill : Filled (Memory.fill (decodedWords fn s.count f)) 256 := Memory.isSome_read_fill _
  refine State.Inv.finish ?_ trail (coil0Of fn f) hrcnt (hfill.mono (by omega))
  exact
    { hi with
      rdataWf := Memory.wf_fill _ (by simp only [Config.bufSize]; omega)
      rdataWhole := .inr hfill
      rcntFilled := hfill.mono (by have := hi.status.rcntBound; omega) }

/-- A LOOPBACK keeps the invariant: what it copies fits in RX_BUF (R44, R200). -/
theorem State.Inv.loopback (hi : s.Inv) {bs : List Byte} (hl : bs.length = s.txLen.toNat) :
    (Machine.finish false false 0#8 { s with rxBuf := s.rxBuf.writeFrom 0 bs, rxLen := s.txLen }).Inv := by
  have htx := hi.txLen
  refine State.Inv.finish ?_ false false (Nat.zero_le _) (filled_zero _)
  exact { hi with rxWf := Memory.wf_writeFrom _ _ 0 hi.rxWf (by simp only [Config.bufSize]; omega) }

/-- A soft reset keeps the invariant: TX_LEN counts nothing, and the buffers stay (R251). -/
theorem State.Inv.softResetOp (hi : s.Inv) : (softResetOp s).Inv :=
  { hi with
    status := reset_legal
    txLen := Nat.zero_le _
    txFilled := filled_zero _
    rcntFilled := filled_zero _ }

/-- A register write keeps the invariant: it reaches RX_BUF and WDATA alone among what the invariant speaks of (R204). -/
theorem State.Inv.writePlain (hi : s.Inv) (v : BusWord) (l : PlainLoc) : (writePlain s v l).Inv := by
  cases l with
  | rxBuf i => exact { hi with rxWf := Memory.wf_write _ _ _ hi.rxWf i.isLt }
  | wdata j => exact { hi with wdataWf := Memory.wf_write _ _ _ hi.wdataWf j.isLt }
  | _ => exact { hi with }

/-- An instruction that completes keeps the invariant. -/
theorem exec_keeps_inv {i : Instr} (hi : s.Inv) (h : exec i s = .next t) : t.Inv := by
  cases exec_next h with
  | crcInit =>
    have hset : State.Inv { s with crcAcc := Config.crcInitial } := { hi with }
    exact hset.finish false false (Nat.zero_le _) (filled_zero _)
  | crcByte v => exact { hi with }
  | crcSet v => exact { hi with }
  | crcRead => exact { hi with }
  | buildRefused fn => exact hi.raise (fun _ => rfl) (by decide) (fun _ => rfl)
  | buildSent fn body _ _ hl => exact hi.sendFrame hl
  | parseBadArgument fn => exact (hi.withCrcChk _).raise (fun _ => rfl) (by decide) (fun _ => rfl)
  | parseShort fn => exact (hi.withCrcChk _).raise (fun _ => rfl) (by decide) (fun _ => rfl)
  | parseFailed fn code trail exc c hcode hexc =>
    simp only [List.mem_cons, List.not_mem_nil, or_false] at hcode
    refine (hi.withCrcChk c).raise hexc ?_ ?_ <;> rcases hcode with rfl | rfl | rfl | rfl | rfl <;> simp
  | parseDelivered fn trail f c hc => exact (hi.withCrcChk c).deliver trail f hc
  | loopback bs _ hl => exact hi.loopback hl
  | softReset v => exact hi.softResetOp
  | softResetIdle v => exact hi
  | statusClear v => exact { hi with status := hi.status.clearSticky }
  | statusClearIdle v => exact hi
  | regWrite l v => exact hi.writePlain v l
  | regRead l v => exact { hi with }

/-- An access that is no instruction, where the block goes on, keeps the invariant (R63, R206). -/
theorem answerReject_keeps_inv {r : Reject} (hi : s.Inv) (h : answerReject r s = .next t) : t.Inv := by
  cases r with
  | illegalCommand v => cases h; exact hi.raise (fun _ => rfl) (by decide) (fun _ => rfl)
  | outsideWindow => cases h; exact hi
  | _ => cases h

/-- Settles O14: the four things a step can be (idle, a power-on reset, an instruction, no instruction) each keep the
invariant. -/
theorem everyStepKeepsTheInvariant : Obligations.EveryStepKeepsTheInvariant := by
  intro s t hi h
  cases hp : s.pending with
  | nil =>
    rw [step_idle s hp] at h
    cases h
    exact hi
  | cons e rest =>
    cases e with
    | powerOn =>
      rw [step_powerOn s rest hp] at h
      cases h
      exact { resetAt_inv hi.base with }
    | access a =>
      rw [step_access s a rest hp] at h
      cases hd : decode s.base a with
      | ok i => rw [hd] at h; exact exec_keeps_inv (hi.accept rest) h
      | error r => rw [hd] at h; exact answerReject_keeps_inv (hi.accept rest) h

/-- Settles O43: each of the faults that stop an instruction names an entry without a value, and here there is none; what
completes keeps the invariant. -/
theorem everyInstructionCompletesOnWrittenBuffers : Obligations.EveryInstructionCompletesOnWrittenBuffers := by
  intro i s hi htx hrx hwd hrd
  rcases exec_completes_or_faults i s with ⟨t, h⟩ | ⟨_, j, -, hj, hn, hr, -⟩ | ⟨_, j, -, hj, hr, -⟩ | ⟨j, -, hj, hr, -⟩ |
    ⟨_, b, j, -, -, hr⟩
  · exact ⟨t, h, exec_keeps_inv hi h⟩
  · exact absurd hr (hwd.read_ne_none (by omega))
  · exact absurd hr (hrx.read_ne_none hj)
  · exact absurd hr (hi.txFilled.read_ne_none hj)
  · cases b with
    | txBuf => exact absurd hr (htx.read_ne_none j.isLt)
    | rxBuf => exact absurd hr (hrx.read_ne_none j.isLt)
    | wdata => exact absurd hr (hwd.read_ne_none j.isLt)
    | rdata => exact absurd hr (hrd.read_ne_none j.isLt)

/-! ### The frame commands and the accumulator -/

/-- A BUILD takes no part of the accumulator, and leaves it (R47, R130). -/
theorem build_with_crcAcc (fn : Fn) (s : State) (x : Word) :
    build fn { s with crcAcc := x } = mapNext (fun t => { t with crcAcc := x }) (build fn s) := by
  have hbody : requestBody fn { s with crcAcc := x } = requestBody fn s := by cases fn <;> rfl
  simp only [build, hbody]
  cases buildArgsOk fn s.count s.value with
  | false => rfl
  | true => cases requestBody fn s <;> rfl

/-- The checks of a PARSE from the CRC on take no part of the accumulator, and leave it (R47, R165). -/
theorem judge_with_crcAcc (fn : Fn) (trail : Bool) (f : List Byte) (s : State) (x : Word) :
    judge fn trail f { s with crcAcc := x } = { judge fn trail f s with crcAcc := x } := by
  simp only [judge]
  split_ifs <;> rfl

/-- A PARSE takes no part of the accumulator, and leaves it (R47, R165). -/
theorem parse_with_crcAcc (fn : Fn) (s : State) (x : Word) :
    parse fn { s with crcAcc := x } = mapNext (fun t => { t with crcAcc := x }) (parse fn s) := by
  simp only [parse]
  split_ifs
  · rfl
  · rfl
  · rfl
  · cases responseLength fn s.rxBuf with
    | error i => rfl
    | ok len =>
      dsimp only
      split_ifs
      · rfl
      · cases s.rxBuf.readFrom 0 len with
        | error i => rfl
        | ok f => exact congrArg Host.Outcome.next (judge_with_crcAcc fn _ f (withCrcChk 0#32 s) x)

/-- A LOOPBACK takes no part of the accumulator, and leaves it (R47, R200). -/
theorem loopback_with_crcAcc (s : State) (x : Word) :
    execLoopback { s with crcAcc := x } = mapNext (fun t => { t with crcAcc := x }) (execLoopback s) := by
  simp only [execLoopback]
  cases s.txBuf.readFrom 0 s.txLen.toNat <;> rfl

/-- Settles O21: a command other than CRC_INIT is a BUILD, a PARSE or LOOPBACK. -/
theorem frameCommandsIgnoreTheAccumulator : Obligations.FrameCommandsIgnoreTheAccumulator := by
  intro i s x hcmd hne
  rcases instr_split i with ⟨fn, rfl⟩ | ⟨fn, rfl⟩ | rfl | rfl | ⟨v, rfl⟩ | ⟨v, rfl⟩ | rfl | ⟨v, rfl⟩ | ⟨v, rfl⟩ |
    ⟨l, v, rfl⟩ | ⟨l, rfl⟩
  · rw [exec_buildOf, exec_buildOf]; exact build_with_crcAcc fn s x
  · rw [exec_parseOf, exec_parseOf]; exact parse_with_crcAcc fn s x
  · exact absurd rfl hne
  · exact loopback_with_crcAcc s x
  all_goals cases hcmd

/-! ### Entries without a value -/

/-- Settles O35: the invariant gives every TX_BUF entry below TX_LEN a value, so the fault is shut out. -/
theorem loopbackCompletesUnderTheInvariant : Obligations.LoopbackCompletesUnderTheInvariant := by
  intro s hi
  rcases loopback_cases s with ⟨i, hlt, hr, -⟩ | ⟨bs, -, -, hl⟩
  · exact absurd hr (hi.txFilled.read_ne_none hlt)
  · exact ⟨_, hl, rfl⟩

/-- A host read of an entry without a value is the fault of that entry (R48). -/
theorem readEntry_unwritten {w : Nat} (b : Buffer) {m : Memory w} {i : Nat} (h : m.read i = none) :
    readEntry b m i = .error (.unwrittenEntry b i) := by
  simp only [readEntry, h]

/-- REG_READ faults where its location does (R205). -/
theorem exec_regRead_error {l : Loc} {f : Fault} (h : readLoc s l = .error f) : exec (.regRead l) s = .fault f := by
  simp only [exec, execRegRead, h]

/-- BUILD.WMR faults on a WDATA entry below COUNT without a value (R48, R137). -/
theorem buildWmr_unwritten {j : Nat} (h1 : 1 ≤ s.count.toNat) (h123 : s.count.toNat ≤ 123) (hj : j < s.count.toNat)
    (hn : s.wdata.read j = none) : ∃ k, exec .buildWmr s = .fault (.unwrittenEntry .wdata k) := by
  change ∃ k, build .wmr s = _
  have hargs : buildArgsOk .wmr s.count s.value = true := (buildArgsOk_iff .wmr s.count s.value).mpr ⟨h1, h123⟩
  rcases build_cases .wmr s with ⟨ha, -⟩ | ⟨k, -, -, -, -, hb⟩ | ⟨body, -, hbody, -, -⟩
  · rw [hargs] at ha; cases ha
  · exact ⟨k, hb⟩
  · obtain ⟨k, hk⟩ := Memory.readFrom_unwritten s.wdata s.count.toNat 0 j (Nat.zero_le j) (by omega) hn
    simp only [requestBody, hk, reduceCtorEq] at hbody

/-- LOOPBACK faults on a TX_BUF entry below TX_LEN without a value (R48, R200). -/
theorem loopback_unwritten {i : Nat} (hlt : i < s.txLen.toNat) (hn : s.txBuf.read i = none) :
    ∃ k, exec .loopback s = .fault (.unwrittenEntry .txBuf k) := by
  rcases loopback_cases s with ⟨k, -, -, hl⟩ | ⟨bs, hr, -, -⟩
  · exact ⟨k, hl⟩
  · exact absurd hn ((filled_of_readFrom hr).read_ne_none hlt)

/-- A PARSE past its argument and first length checks faults where the frame length does (R160, R163). -/
theorem parse_responseLength_error {fn : Fn} {i : Nat} (hc : CountInRange fn s.count) (h5 : 5 ≤ s.rxLen.toNat)
    (h256 : s.rxLen.toNat ≤ 256) (hl : responseLength fn s.rxBuf = .error i) :
    parse fn s = .fault (.unwrittenEntry .rxBuf i) := by
  simp only [parse, Config.bufSize, Config.minFrame]
  rw [if_neg (by omega), if_neg ((countInRange_iff fn s.count).mp hc), if_neg (by omega), hl]

/-- A PARSE whose received bytes cover the frame faults on an entry of the frame without a value (R48, R160). -/
theorem parse_unwritten {fn : Fn} {len i : Nat} (hc : CountInRange fn s.count) (h5 : 5 ≤ s.rxLen.toNat)
    (h256 : s.rxLen.toNat ≤ 256) (hl : responseLength fn s.rxBuf = .ok len) (hlen : len ≤ s.rxLen.toNat) (hi : i < len)
    (hn : s.rxBuf.read i = none) : ∃ k, parse fn s = .fault (.unwrittenEntry .rxBuf k) := by
  rcases parse_cases fn s with ⟨hbad, -⟩ | ⟨-, -, hshort, -⟩ | ⟨k, -, -, -, hp⟩ | ⟨f, -, -, hf, -, hr, -⟩
  · rcases hbad with hbad | hbad
    · omega
    · exact absurd hc hbad
  · rcases hshort with hshort | ⟨n, hn', hlt⟩
    · omega
    · cases hl.symm.trans hn'
      omega
  · exact ⟨k, hp⟩
  · cases hl.symm.trans hf
    exact absurd hn ((filled_of_readFrom hr).read_ne_none hi)

/-- Settles O41: a host read faults at its own entry, BUILD.WMR and LOOPBACK in the run they read, and PARSE at byte 1 or 2
or in its frame. -/
theorem readingAnUnwrittenEntryFaults : Obligations.ReadingAnUnwrittenEntryFaults := by
  refine ⟨fun s i => ⟨?_, ?_, ?_, ?_⟩, fun s j => buildWmr_unwritten, fun s i => loopback_unwritten,
    fun fn s hc h5 h256 => ?_⟩
  · exact fun h => exec_regRead_error (readEntry_unwritten .txBuf h)
  · exact fun h => exec_regRead_error (readEntry_unwritten .rxBuf h)
  · exact fun h => exec_regRead_error (readEntry_unwritten .wdata h)
  · exact fun h => exec_regRead_error (readEntry_unwritten .rdata h)
  · rw [exec_parseOf]
    refine ⟨fun h1 => ?_, fun r1 h1 hlt hread h2 => ?_, fun len i hfl => ?_⟩
    · exact parse_responseLength_error hc h5 h256 (by simp only [responseLength, h1])
    · have hx : isException r1 = false := by
        rw [← Bool.not_eq_true, isException_iff]
        omega
      exact parse_responseLength_error hc h5 h256
        (by simp only [responseLength, h1, hx, hread, h2, Bool.false_eq_true, if_false, if_true])
    · exact parse_unwritten hc h5 h256 ((responseLength_eq_ok fn s.rxBuf len).mpr hfl)

/-- Settles O42: the four kinds of fault of an instruction, each with its entry. -/
theorem onlyUnwrittenEntriesStopAnInstruction : Obligations.OnlyUnwrittenEntriesStopAnInstruction := by
  intro i s
  rcases exec_completes_or_faults i s with h | ⟨_, j, -, -, -, hr, h⟩ | ⟨_, j, -, -, hr, h⟩ | ⟨j, -, -, hr, h⟩ |
    ⟨_, b, j, -, h, hr⟩
  · exact .inl h
  · exact .inr ⟨.wdata, j, h, hr⟩
  · exact .inr ⟨.rxBuf, j, h, hr⟩
  · exact .inr ⟨.txBuf, j, h, hr⟩
  · exact .inr ⟨b, j, h, hr⟩

/-! ### STATUS -/

/-- The STATUS word by its fields (R27). -/
theorem toWord_toNat (st : Status) : st.toWord.toNat =
    st.sticky.toNat * 2 ^ 31 + st.rcnt.toNat * 2 ^ 16 + st.exc.toNat * 2 ^ 8 + st.coil0.toNat * 2 ^ 5 +
      st.trail.toNat * 2 ^ 4 + st.result.code.toNat := by
  simp only [Status.toWord, toNat_append_add, BitVec.toNat_ofBool, BitVec.toNat_ofNat]
  omega

/-- A bit of a word by its value. -/
theorem getLsbD_eq_of_toNat (v : BusWord) (k : Nat) (b : Bool) (h : v.toNat / 2 ^ k % 2 = b.toNat) : v.getLsbD k = b := by
  rw [BitVec.getLsbD, Nat.testBit_eq_decide_div_mod_eq, h]
  cases b <;> rfl

/-- Settles O44: each field is a digit of the word's value, and none overlaps the next. -/
theorem statusWordLayout : Obligations.StatusWordLayout := by
  intro st
  have hw := toWord_toNat st
  have hcode := st.result.code.isLt
  have hexc := st.exc.isLt
  have hrcnt := st.rcnt.isLt
  have htrail := st.trail.toNat_le
  have hcoil := st.coil0.toNat_le
  have hsticky := st.sticky.toNat_le
  refine ⟨?_, getLsbD_eq_of_toNat _ 4 _ ?_, getLsbD_eq_of_toNat _ 5 _ ?_, ?_, ?_, ?_, ?_, getLsbD_eq_of_toNat _ 31 _ ?_⟩
  · have hlow : st.toWord.toNat % 16 = st.result.code.toNat := by omega
    rw [hlow]
    cases st.result <;> rfl
  all_goals omega

/-- Every BUILD is a command (R81). -/
@[simp] theorem isCommand_buildOf (fn : Fn) : isCommand (buildOf fn) = true := by cases fn <;> rfl

/-- Every PARSE is a command (R81). -/
@[simp] theorem isCommand_parseOf (fn : Fn) : isCommand (parseOf fn) = true := by cases fn <;> rfl

/-- A register write leaves STATUS alone (R204). -/
@[simp] theorem writePlain_status (s : State) (v : BusWord) (l : PlainLoc) : (writePlain s v l).status = s.status := by
  cases l <;> rfl

/-- A command sets STICKY where it ends with an error and otherwise keeps it (R33, R222). -/
theorem command_sticky {i : Instr} (hcmd : isCommand i = true) (h : exec i s = .next t) :
    t.status.sticky = (s.status.sticky || t.status.result.isError) := by
  cases exec_next h with
  | crcByte | crcSet | crcRead | softReset | softResetIdle | statusClear | statusClearIdle | regWrite | regRead =>
    cases hcmd
  | _ => rfl

/-- An instruction clears STICKY only as a SOFT_RESET with bit 0 or a STATUS_CLEAR with bit 31 (R33, R202, R203). -/
theorem exec_clears_sticky {i : Instr} (h : exec i s = .next t) (hs : s.status.sticky = true)
    (ht : t.status.sticky = false) :
    ∃ v, (i = .softReset v ∧ v.getLsbD 0 = true) ∨ (i = .statusClear v ∧ v.getLsbD 31 = true) := by
  cases exec_next h with
  | softReset v bit => exact ⟨v, .inl ⟨rfl, bit⟩⟩
  | statusClear v bit => exact ⟨v, .inr ⟨rfl, bit⟩⟩
  | _ => simp [hs] at ht

/-- An access that is no instruction never clears STICKY (R63, R206). -/
theorem answerReject_keeps_sticky {r : Reject} (h : answerReject r s = .next t) (hs : s.status.sticky = true) :
    t.status.sticky = true := by
  cases r with
  | illegalCommand v => cases h; simp [hs]
  | outsideWindow => cases h; exact hs
  | _ => cases h

/-- Settles O45: a step that clears STICKY is neither idle nor a rejected access, and the instructions that clear it are
two. -/
theorem stickyIsClearedOnlyByClearOrReset : Obligations.StickyIsClearedOnlyByClearOrReset := by
  refine ⟨fun i s t hcmd h => ?_, fun s t h hs ht => ?_⟩
  · rw [command_sticky hcmd h, isError_eq]
  · cases hp : s.pending with
    | nil =>
      rw [step_idle s hp] at h
      cases h
      rw [hs] at ht
      cases ht
    | cons e rest =>
      refine ⟨rest, ?_⟩
      cases e with
      | powerOn => exact .inl rfl
      | access a =>
        rw [step_access s a rest hp] at h
        cases hd : decode s.base a with
        | ok i =>
          rw [hd] at h
          obtain ⟨v, hv⟩ := exec_clears_sticky h hs ht
          refine .inr ⟨a, v, rfl, hv.imp ?_ ?_⟩
          · rintro ⟨rfl, bit⟩; exact ⟨hd, bit⟩
          · rintro ⟨rfl, bit⟩; exact ⟨hd, bit⟩
        | error r =>
          rw [hd] at h
          rw [answerReject_keeps_sticky h hs] at ht
          cases ht

/-! ### The writers of each register -/

/-- Settles O48: read off the forms in which an instruction completes. -/
theorem eachRegisterHasOnlyItsWriters : Obligations.EachRegisterHasOnlyItsWriters := by
  intro i s t h hns
  cases exec_next h with
  | buildRefused fn | buildSent fn =>
    have hfn : ∃ g, buildOf fn = buildOf g := ⟨fn, rfl⟩
    simp [hfn]
  | parseBadArgument fn | parseShort fn | parseFailed fn | parseDelivered fn =>
    have hfn : ∃ g, parseOf fn = parseOf g := ⟨fn, rfl⟩
    simp [hfn]
  | softReset v => exact absurd rfl (hns v)
  | regWrite l v => cases l <;> simp [writePlain]
  | _ => simp [isCommand]

/-! ### Decoding and the step -/

/-- The read of a location of the map, at its offset (R22, R84). -/
theorem decode_read_offset (base : Nat) (l : Loc) (h : l.wf = true) :
    decode base (busRead base l.offset) = .ok (decodeRead l) := by
  obtain ⟨h4, hw⟩ := offset_aligned l h
  rw [decode_busRead base _ h4 hw, locAt_offset l h]

/-- The write of a location of the map, at its offset (R22, R84, R204). -/
theorem decode_write_offset (base : Nat) (l : Loc) (v : BusWord) (h : l.wf = true) :
    decode base (busWrite base l.offset v) = decodeWrite l v := by
  obtain ⟨h4, hw⟩ := offset_aligned l h
  rw [decode_busWrite base _ v h4 hw, locAt_offset l h]

/-- A write to CMD of the word of a command decodes to the command (R82). -/
theorem decode_commandWord (base : Nat) {v : BusWord} {i : Instr} (h : decodeCmd v = some i) :
    decode base (busWrite base 0x008 v) = .ok i := by
  rw [decode_busWrite base 0x008 v (by decide) (by decide), show locAt 0x008 = .cmd by decide]
  simp only [decodeWrite, h]

/-- Settles O1: every access is that of a location at its offset. -/
theorem referenceWordsDecode : Obligations.ReferenceWordsDecode := by
  refine ⟨fun base => ?_, fun base => ?_, fun base v => ?_⟩
  · exact ⟨decode_commandWord base (by decide), decode_commandWord base (by decide),
      decode_commandWord base (by decide), decode_commandWord base (by decide),
      decode_write_offset base .crcData _ rfl, decode_read_offset base .crcAcc rfl,
      decode_write_offset base .ctrl _ rfl, decode_write_offset base (.plain (.wdata 1)) _ rfl,
      decode_read_offset base (.plain (.rdata 255)) rfl⟩
  · have read := decode_read_offset base
    exact ⟨read (.plain .id) rfl, read .ctrl rfl, read .cmd rfl, read .status rfl, read .crcAcc rfl, read .crcData rfl,
      read (.plain .slaveAddr) rfl, read (.plain .startAddr) rfl, read (.plain .count) rfl, read (.plain .value) rfl,
      read (.plain .txLen) rfl, read (.plain .rxLen) rfl, read (.plain .crcChk) rfl⟩
  · have write := fun l => decode_write_offset base l v
    exact ⟨write (.plain .id) rfl, write .ctrl rfl, write .cmd rfl, write .status rfl, write .crcAcc rfl,
      write .crcData rfl, write (.plain .slaveAddr) rfl, write (.plain .startAddr) rfl, write (.plain .count) rfl,
      write (.plain .value) rfl, write (.plain .txLen) rfl, write (.plain .rxLen) rfl, write (.plain .crcChk) rfl⟩

/-- Settles O6: taking an access off the stream is `accept`, and an empty stream is the idle step. -/
theorem stepRunsTheDecodedInstruction : Obligations.StepRunsTheDecodedInstruction := by
  refine ⟨fun s a rest i hp hd => ?_, step_idle⟩
  rw [step_access s a rest hp, hd]
  rfl

end Sys2Proof.Machine
end

section
/-! PROOFS. The memory family (spec/20_memory.md): which accesses decode, and to what; which are refused or do not reach the
block; what a read leaves unchanged, and what it gives after a write. The inverse of the decoder comes first, then the step,
then reads after writes. -/

namespace Sys2Proof

/-! ### The decoder's results, read backwards -/

/-- A word whose RSV is 0 is its FN and its OP (R80). -/
theorem eq_append_of_cmdRsv {v : BusWord} (h : cmdRsv v = 0#16) : v = 0#16 ++ cmdFn v ++ cmdOp v := by
  have hrsv := congrArg BitVec.toNat h
  have hlt := v.isLt
  simp only [cmdRsv, BitVec.extractLsb'_toNat, Nat.shiftRight_eq_div_pow, BitVec.toNat_ofNat] at hrsv
  apply BitVec.eq_of_toNat_eq
  simp only [Machine.toNat_append_add, cmdFn, cmdOp, BitVec.extractLsb'_toNat, Nat.shiftRight_eq_div_pow,
    BitVec.toNat_ofNat]
  omega

/-- A word that the procedure of R82 decodes stands in the list of R81, with the command it decodes to. -/
theorem mem_commandWords_of_decodeCmd {v : BusWord} {i : Instr} (h : decodeCmd v = some i) :
    (v, i) ∈ Machine.commandWords := by
  simp only [decodeCmd] at h
  split_ifs at h with hrsv hinit hloop hbuild hparse <;> rw [ne_eq, not_not] at hrsv <;> rw [eq_append_of_cmdRsv hrsv]
  · cases h
    rw [hinit.1, hinit.2]
    decide
  · cases h
    rw [hloop.1, hloop.2]
    decide
  · obtain ⟨fn, hfn, rfl⟩ := Option.map_eq_some_iff.mp h
    rw [hbuild, fnOfCode_some hfn]
    cases fn <;> decide
  · obtain ⟨fn, hfn, rfl⟩ := Option.map_eq_some_iff.mp h
    rw [hparse, fnOfCode_some hfn]
    cases fn <;> decide

/-- A command is well formed, and its access is the write of its word to CMD (R81). -/
theorem encode_commandWord : ∀ row ∈ Machine.commandWords,
    row.2.wf = true ∧ ∀ base, encode base row.2 = busWrite base 0x008 row.1 := by
  simp [Machine.commandWords, Instr.wf, encode]

/-- The instruction of a write is well formed, and its access is that write (R84). -/
theorem encode_of_decodeWrite {l : Loc} {v : BusWord} {i : Instr} (hl : l.wf = true) (h : decodeWrite l v = .ok i) :
    i.wf = true ∧ ∀ base, encode base i = busWrite base l.offset v := by
  cases l with
  | cmd =>
    cases hc : decodeCmd v with
    | none => simp only [decodeWrite, hc, reduceCtorEq] at h
    | some j =>
      simp only [decodeWrite, hc, Except.ok.injEq] at h
      subst h
      exact encode_commandWord (v, j) (mem_commandWords_of_decodeCmd hc)
  | plain p => cases h; exact ⟨hl, fun _ => rfl⟩
  | _ => cases h; exact ⟨rfl, fun _ => rfl⟩

/-- The instruction of a read is well formed, and its access is that read (R84, R114). -/
theorem encode_decodeRead {l : Loc} (hl : l.wf = true) :
    (decodeRead l).wf = true ∧ ∀ base, encode base (decodeRead l) = busRead base l.offset := by
  cases l with
  | plain p => exact ⟨by simpa [decodeRead, Instr.wf] using hl, fun _ => rfl⟩
  | _ => exact ⟨rfl, fun _ => rfl⟩

/-- Settles O4: an access that decodes stands at the aligned offset of one location, and the reads and the writes of a
location are encoded at its offset. -/
theorem decodedAccessIsTheOneEncoded : Obligations.DecodedAccessIsTheOneEncoded := by
  intro base a i h
  obtain ⟨off, h4, hw, ha⟩ := decode_ok h
  obtain ⟨hoff, hwf⟩ := offset_locAt off h4 hw
  obtain ⟨dir, width, kind, addr, data⟩ := a
  dsimp only at ha
  rw [ha] at h ⊢
  rw [decode_window base off dir data h4 hw] at h
  cases dir with
  | read =>
    cases h
    obtain ⟨hi, henc⟩ := encode_decodeRead hwf
    exact ⟨hi, by rw [henc base, hoff]; rfl⟩
  | write =>
    obtain ⟨hi, henc⟩ := encode_of_decodeWrite hwf h
    exact ⟨hi, by rw [henc base, hoff]; rfl⟩

/-- An access that reads the block as one of its instructions has the direction of the instruction's own access (R96). -/
theorem encode_dir_of_decode {base : Nat} {a : BusAccess} {i : Instr} (h : decode base a = .ok i) :
    (encode base i).dir = a.dir := by
  rw [(decodedAccessIsTheOneEncoded base a i h).2]

/-- The access is no single 32-bit access at an aligned offset of a block placed at `base`: R62 gives it no meaning. -/
def BusAccess.UndefinedAt (base : Nat) (a : BusAccess) : Prop :=
  a.width ≠ .word ∨ a.kind ≠ .single ∨ a.addr < base ∨ (a.addr - base) % 4 ≠ 0

/-- What a rejection says of the access that the decoder rejects (R62, R63, R206). -/
def Reject.Ground (base : Nat) (a : BusAccess) : Reject → Prop
  | .outsideWindow => a.reaches base = false
  | .illegalCommand _ => a.reaches base = true ∧ ¬ a.UndefinedAt base ∧ a.dir = .write
  | .burstAccess | .lockedAccess | .narrowAccess | .misalignedAccess => a.reaches base = true ∧ a.UndefinedAt base

/-- The one write without a reading is a CMD write of a word that is no command (R83). -/
theorem decodeWrite_error {l : Loc} {v : BusWord} {e : Reject} (h : decodeWrite l v = .error e) :
    e = .illegalCommand v := by
  cases l with
  | cmd => cases hc : decodeCmd v <;> simp only [decodeWrite, hc, reduceCtorEq, Except.error.injEq] at h; exact h.symm
  | _ => cases h

/-- The decoder rejects an access on the ground that it names. -/
theorem decode_error {base : Nat} {a : BusAccess} {e : Reject} (h : decode base a = .error e) : e.Ground base a := by
  simp only [decode] at h
  split_ifs at h with hreach hlocked hkind hwidth haddr
  · cases h; exact hreach
  all_goals rw [Bool.not_eq_false] at hreach
  · cases h; exact ⟨hreach, .inr (.inl (by simp [hlocked]))⟩
  · cases h; exact ⟨hreach, .inr (.inl hkind)⟩
  · cases h; exact ⟨hreach, .inl hwidth⟩
  · cases h; exact ⟨hreach, .inr (.inr haddr)⟩
  · cases hd : a.dir with
    | read => rw [hd] at h; cases h
    | write =>
      rw [hd] at h
      cases decodeWrite_error h
      refine ⟨hreach, ?_, hd⟩
      rintro (hn | hn | hn)
      exacts [hwidth hn, hkind hn, haddr hn]

/-- An access that decodes reaches the block, in the one form that R62 defines. -/
theorem defined_of_decode {base : Nat} {a : BusAccess} {i : Instr} (h : decode base a = .ok i) :
    a.reaches base = true ∧ ¬ a.UndefinedAt base := by
  obtain ⟨off, h4, hw, ha⟩ := decode_ok h
  rw [ha]
  refine ⟨?_, ?_⟩
  · rw [reaches_iff, span_word]
    dsimp only
    omega
  · simp only [BusAccess.UndefinedAt, ne_eq, not_true_eq_false, false_or]
    omega

/-- In an aligned window an access that reaches the block is of an undefined form exactly when its address is no multiple of
4 or it is no single 32-bit access (R62, R63). -/
theorem undefinedAt_iff {base : Nat} {a : BusAccess} (hb : base % 0x2000 = 0) (hr : base < a.addr + a.span) :
    a.UndefinedAt base ↔ (a.width ≠ .word ∨ a.kind ≠ .single ∨ a.addr % 4 ≠ 0) := by
  obtain ⟨dir, width, kind, addr, data⟩ := a
  simp only [BusAccess.UndefinedAt]
  refine or_congr_right' fun hwidth => or_congr_right' fun hkind => ?_
  rw [not_not] at hwidth hkind
  subst hwidth hkind
  rw [span_word] at hr
  dsimp only at hr
  omega

end Sys2Proof

namespace Sys2Proof.Machine

variable {s t : State}

/-! ### Accesses by their effect on the block -/

/-- Settles O5: a buffer offset is the offset of its entry, and a hole is a location that holds 0 and stores nothing. -/
theorem windowOffsetsNameEntriesAndHoles : Obligations.WindowOffsetsNameEntriesAndHoles := by
  refine ⟨fun base i v => ?_, fun s off v rest h4 hrange => ?_⟩
  · have read := decode_read_offset base
    have write := fun l => decode_write_offset base l v
    exact ⟨⟨read (.plain (.txBuf i)) rfl, write (.plain (.txBuf i)) rfl⟩,
      ⟨read (.plain (.rxBuf i)) rfl, write (.plain (.rxBuf i)) rfl⟩,
      ⟨read (.plain (.wdata i)) rfl, write (.plain (.wdata i)) rfl⟩,
      ⟨read (.plain (.rdata i)) rfl, write (.plain (.rdata i)) rfl⟩⟩
  · have hwf : Loc.wf (.plain (.hole off)) = true := by
      simp only [Loc.wf, PlainLoc.wf, isHoleOffset, Bool.and_eq_true, Bool.or_eq_true, beq_iff_eq, decide_eq_true_eq]
      exact ⟨h4, hrange⟩
    exact ⟨fun hp => stepRunsTheDecodedInstruction.1 s _ rest _ hp (decode_read_offset s.base _ hwf),
      fun hp => stepRunsTheDecodedInstruction.1 s _ rest _ hp (decode_write_offset s.base _ v hwf)⟩

/-- Settles O8: a refusal is the answer to a rejection on one of the grounds of R62, since no instruction is refused. -/
theorem undefinedAccessesAreRefused : Obligations.UndefinedAccessesAreRefused := by
  intro s a rest hb hp hlt hgt
  have hreach : a.reaches s.base = true := (reaches_iff s.base a).mpr ⟨hlt, hgt⟩
  rw [← undefinedAt_iff hb hgt, step_access s a rest hp]
  cases hd : decode s.base a with
  | ok i =>
    exact iff_of_false (fun ⟨r, hr⟩ => exec_ne_refused i _ r hr) (defined_of_decode hd).2
  | error e =>
    have hg := decode_error hd
    cases e with
    | outsideWindow => cases hreach.symm.trans hg
    | illegalCommand v =>
      obtain ⟨-, hdefined, -⟩ := hg
      exact iff_of_false (fun ⟨r, hr⟩ => by cases hr) hdefined
    | _ => exact iff_of_true ⟨_, rfl⟩ hg.2

/-- Settles O9: such an access does not reach the block, and the decoder says so. -/
theorem accessOutsideTheWindowHasNoEffect : Obligations.AccessOutsideTheWindowHasNoEffect := by
  intro s a rest hp hout
  have hreach : a.reaches s.base = false := by
    rw [← Bool.not_eq_true, reaches_iff]
    omega
  rw [step_access s a rest hp]
  simp only [decode, hreach, if_true]
  rfl

/-- An instruction that the host issues as a read changes nothing but the response, and leaves a value there (R60, R205). -/
theorem exec_read_result {base : Nat} {i : Instr} (hdir : (encode base i).dir = .read) (h : exec i s = .next t) :
    ∃ v, t = { s with response := some v } := by
  cases exec_next h with
  | crcRead => exact ⟨_, rfl⟩
  | regRead l v => exact ⟨v, rfl⟩
  | buildRefused fn | buildSent fn | parseBadArgument fn | parseShort fn | parseFailed fn | parseDelivered fn =>
    cases fn <;> cases hdir
  | _ => cases hdir

/-- An instruction that the host issues as a write returns nothing (R61). -/
theorem exec_write_response {base : Nat} {i : Instr} (hdir : (encode base i).dir = .write) (h : exec i s = .next t) :
    t.response = s.response := by
  cases exec_next h with
  | crcRead | regRead => cases hdir
  | regWrite l v => cases l <;> rfl
  | _ => rfl

/-- Settles O10: an instruction has the direction of the access it was decoded from, and no rejection returns a value. -/
theorem readAccessesHaveNoSideEffect : Obligations.ReadAccessesHaveNoSideEffect := by
  intro s t a rest hp h
  rw [← reaches_iff]
  rw [step_access s a rest hp] at h
  cases hd : decode s.base a with
  | ok i =>
    rw [hd] at h
    have hreach := (defined_of_decode hd).1
    have hdir := encode_dir_of_decode hd
    cases ha : a.dir with
    | read =>
      obtain ⟨v, rfl⟩ := exec_read_result (hdir.trans ha) h
      exact ⟨fun _ => rfl, iff_of_true rfl ⟨rfl, hreach⟩⟩
    | write =>
      have hnone : t.response = none := exec_write_response (hdir.trans ha) h
      simp [hnone]
  | error e =>
    rw [hd] at h
    have hg := decode_error hd
    cases e with
    | outsideWindow =>
      cases h
      exact ⟨fun _ => rfl, iff_of_false (by simp) fun hr => by cases hr.2.symm.trans hg⟩
    | illegalCommand v =>
      obtain ⟨-, -, hwrite⟩ := hg
      cases h
      simp [hwrite]
    | _ => cases h

/-! ### A read after a write -/

/-- The bits that a location keeps of a host write, where it keeps any (R204). -/
def storedWidth : PlainLoc → Option Nat
  | .slaveAddr | .rxBuf _ => some 8
  | .startAddr | .count | .value | .wdata _ => some 16
  | .rxLen => some 9
  | .id | .txLen | .crcChk | .hole _ | .txBuf _ | .rdata _ => none

/-- An entry just written reads as its value (R67). -/
theorem readEntry_write {w : Nat} (b : Buffer) (m : Memory w) (i : Nat) (v : BitVec w) :
    readEntry b (m.write i v) i = .ok (v.setWidth 32) := by
  simp only [readEntry, Memory.read_write, if_true]

/-- A location just written reads as the bits it keeps, zero-extended (R23, R67, R205). -/
theorem readPlain_writePlain (s : State) (v : BusWord) {l : PlainLoc} {width : Nat} (h : storedWidth l = some width) :
    readPlain (writePlain s v l) l = .ok ((v.setWidth width).setWidth 32) := by
  cases l with
  | slaveAddr | startAddr | count | value | rxLen =>
    cases h
    simp only [readPlain, writePlain, extractLsb'_zero]
  | rxBuf i | wdata i =>
    cases h
    simp only [readPlain, writePlain, readEntry_write, extractLsb'_zero]
  | _ => cases h

/-- No location keeps more than 16 bits of a write (R204). -/
theorem storedWidth_le {l : PlainLoc} {width : Nat} (h : storedWidth l = some width) : width ≤ 16 := by
  cases l <;> cases h <;> decide

/-- REG_READ returns the value of its location, where it has one (R205). -/
theorem exec_regRead_ok {l : Loc} {v : BusWord} (h : readLoc s l = .ok v) :
    exec (.regRead l) s = .next { s with response := some v } := by
  simp only [exec, execRegRead, h]

/-- Settles O40: what is read back is the written value cut to the width that its location keeps. -/
theorem registerReadsBackItsWrite : Obligations.RegisterReadsBackItsWrite := by
  intro s v l width h
  have hwidth : storedWidth l = some width := by
    rcases h with ⟨rfl | ⟨i, rfl⟩, rfl⟩ | ⟨rfl | rfl | rfl | ⟨j, rfl⟩, rfl⟩ | ⟨rfl, rfl⟩ <;> rfl
  have hlt : v.toNat % 2 ^ width < 2 ^ 32 :=
    (Nat.mod_lt _ (Nat.two_pow_pos width)).trans_le
      (Nat.pow_le_pow_right (by decide) ((storedWidth_le hwidth).trans (by decide)))
  refine ⟨_, _, rfl, exec_regRead_ok (readPlain_writePlain s v hwidth), ?_⟩
  simp only [Option.map_some, BitVec.toNat_setWidth, Nat.mod_eq_of_lt hlt]

end Sys2Proof.Machine
end

section
/-! PROOFS. The encoding family (spec/30_encoding.md): the list of command words, and the round trip from an instruction to
its access and back. -/

namespace Sys2Proof

open Machine

/-- Each word of the list of R81 decodes by the procedure of R82 to the command that stands beside it. -/
theorem decodeCmd_commandWord : ∀ row ∈ commandWords, decodeCmd row.1 = some row.2 := by decide

/-- Settles O2: the procedure of R82 yields only rows of the list, and it yields each of them. -/
theorem commandWordsAreExactlyTheSixteen : Obligations.CommandWordsAreExactlyTheSixteen :=
  fun v i => ⟨mem_commandWords_of_decodeCmd, decodeCmd_commandWord (v, i)⟩

/-- Each of the sixteen commands has a word in the list of R81. -/
theorem exists_commandWord_of_isCommand {i : Instr} (h : isCommand i = true) :
    ∃ v, (v, i) ∈ commandWords := by
  cases i with
  | crcByte | crcSet | crcRead | softReset | statusClear | regWrite | regRead => cases h
  | _ => simp [commandWords]

/-- A command is what its own access decodes to. -/
theorem decode_encode_of_isCommand (base : Nat) {i : Instr} (h : isCommand i = true) :
    decode base (encode base i) = .ok i := by
  obtain ⟨v, hrow⟩ := exists_commandWord_of_isCommand h
  obtain ⟨-, henc⟩ := encode_commandWord (v, i) hrow
  rw [henc base]
  exact decode_commandWord base (decodeCmd_commandWord (v, i) hrow)

/-- A read anywhere but at CRC_ACC is REG_READ (R84, R114). -/
theorem decodeRead_of_ne_crcAcc {l : Loc} (h : l ≠ .crcAcc) : decodeRead l = .regRead l := by
  cases l with
  | crcAcc => exact absurd rfl h
  | _ => rfl

/-- Settles O3: a register access is found again by its location, the one read that is not REG_READ being that of CRC_ACC,
and a command by its word. -/
theorem encodedInstructionDecodesToItself : Obligations.EncodedInstructionDecodesToItself := by
  intro base i hwf
  cases i with
  | crcByte v => exact decode_write_offset base .crcData v rfl
  | crcSet v => exact decode_write_offset base .crcAcc v rfl
  | crcRead => exact decode_read_offset base .crcAcc rfl
  | softReset v => exact decode_write_offset base .ctrl v rfl
  | statusClear v => exact decode_write_offset base .status v rfl
  | regWrite l v => exact decode_write_offset base (.plain l) v hwf
  | regRead l =>
    simp only [Instr.wf, Bool.and_eq_true, bne_iff_ne] at hwf
    obtain ⟨hl, hne⟩ := hwf
    exact (decode_read_offset base l hl).trans (congrArg _ (decodeRead_of_ne_crcAcc hne))
  | _ => exact decode_encode_of_isCommand base rfl

end Sys2Proof
end

section
/-! PROOFS. The CRC family (spec/40_crc.md): the CRC function on numbers and on a message with its own CRC, the four accesses
of the accumulator, and the bytes that a stream of accesses feeds into it. -/

namespace Sys2Proof.Machine

variable {s t : State}

/-! ### The bytes fed, one instruction at a time -/

/-- The instruction is none of those that set the accumulator by something else than a byte fed into it: CRC_INIT, CRC_SET,
and a SOFT_RESET with bit 0 set (R111, R113, R202). -/
def PreservesCrcStream (i : Instr) : Prop :=
  i ≠ .crcInit ∧ (∀ v, i ≠ .crcSet v) ∧ ∀ v, i = .softReset v → v.getLsbD 0 = false

/-- An instruction that keeps a stream with any operand preserves it (R263). -/
theorem preservesCrcStream_of_keepsCrcStream {i : Instr} (h : keepsCrcStream i = true) : PreservesCrcStream i := by
  refine ⟨?_, ?_, ?_⟩
  · rintro rfl; cases h
  · rintro v rfl; cases h
  · rintro v rfl; cases h

/-- A BUILD feeds no byte (R47). -/
@[simp] theorem fedBytes_buildOf (fn : Fn) : fedBytes [buildOf fn] = [] := by cases fn <;> rfl

/-- A PARSE feeds no byte (R47). -/
@[simp] theorem fedBytes_parseOf (fn : Fn) : fedBytes [parseOf fn] = [] := by cases fn <;> rfl

/-- The bytes of a sequence are those of its first instruction, then those of the others (R112). -/
theorem fedBytes_cons (i : Instr) (is : List Instr) : fedBytes (i :: is) = fedBytes [i] ++ fedBytes is := by
  cases i <;> rfl

/-- A register write leaves the accumulator alone (R204). -/
@[simp] theorem writePlain_crcAcc (s : State) (v : BusWord) (l : PlainLoc) : (writePlain s v l).crcAcc = s.crcAcc := by
  cases l <;> rfl

/-- An instruction that preserves the stream takes the accumulator from `crc16` of some bytes to `crc16` of those and the bytes
it feeds (R47, R112, R115). -/
theorem exec_feeds {i : Instr} {bs : List Byte} (hs : s.crcAcc = crc16 bs) (hi : PreservesCrcStream i)
    (h : exec i s = .next t) : t.crcAcc = crc16 (bs ++ fedBytes [i]) := by
  obtain ⟨hinit, hset, hreset⟩ := hi
  cases exec_next h with
  | crcByte v => simp only [fedBytes, crc16_append, ← hs, extractLsb'_zero, List.foldl_cons, List.foldl_nil]
  | crcInit => exact absurd rfl hinit
  | crcSet v => exact absurd rfl (hset v)
  | softReset v bit => cases bit.symm.trans (hreset v rfl)
  | _ => simp [hs, fedBytes]

/-- An access that is no instruction, where the block goes on, leaves the accumulator alone (R63, R206). -/
theorem answerReject_crcAcc {r : Reject} (h : answerReject r s = .next t) : t.crcAcc = s.crcAcc := by
  cases r with
  | illegalCommand v | outsideWindow => cases h; rfl
  | _ => cases h

/-- Settles O49: a decoded access feeds the bytes of its instruction, and a rejected one leaves the accumulator alone. -/
theorem everyStepKeepsTheCrcStream : Obligations.EveryStepKeepsTheCrcStream := by
  intro s t a rest bs hp hs h hpres
  rw [step_access s a rest hp] at h
  cases hd : decode s.base a with
  | ok i =>
    rw [hd] at h
    exact exec_feeds (s := accept rest s) hs (hpres i hd) h
  | error r =>
    rw [hd] at h
    rw [List.append_nil, answerReject_crcAcc h, accept_crcAcc, hs]

/-! ### The CRC function -/

/-- Settles O15: `crc_step` follows the rule on numbers, so the fold does. -/
theorem crcIsTheRuleOnNumbers : Obligations.CrcIsTheRuleOnNumbers :=
  fun _ => (List.foldl_hom BitVec.toNat fun acc b => (crcStep_toNat acc b).symm).symm

/-- Settles O16: each byte of the CRC meets the low byte of the accumulator, so each of the two steps only shifts it out. -/
theorem frameResidueIsZero : Obligations.FrameResidueIsZero := by
  intro m
  have hlo : (loByte (crc16 m)).toNat = (crc16 m).toNat % 256 := loByte_toNat _
  have hhi : (hiByte (crc16 m)).toNat = (crc16 m >>> 8).toNat % 256 := by
    have := (crc16 m).isLt
    rw [hiByte_toNat, BitVec.toNat_ushiftRight, Nat.shiftRight_eq_div_pow]
    omega
  calc crc16 (m ++ crcTrailer (crc16 m))
      = crcStep (crcStep (crc16 m) (loByte (crc16 m))) (hiByte (crc16 m)) := by
        rw [← crcBytes_eq_crcTrailer, crc16_append]; rfl
    _ = crc16 m >>> 8 >>> 8 := by rw [crcStep_of_low _ _ hlo, crcStep_of_low _ _ hhi]
    _ = 0#16 := by rw [← BitVec.shiftRight_add]; exact BitVec.ushiftRight_eq_zero (le_refl 16)

/-! ### Streams of accesses -/

/-- The step of a well-formed instruction's access is that instruction, with the access taken off the stream (R66). -/
theorem step_accessesOf {i : Instr} {is : List Instr} {rest : List HostEvent} (hwf : i.wf = true)
    (hp : s.pending = accessesOf s.base (i :: is) ++ rest) :
    step s = exec i (accept (accessesOf s.base is ++ rest) s) :=
  stepRunsTheDecodedInstruction.1 s _ _ i hp (encodedInstructionDecodesToItself s.base i hwf)

/-- No instruction moves the window or touches the accesses to come (R49, R66). -/
theorem exec_base_pending {i : Instr} (h : exec i s = .next t) : t.base = s.base ∧ t.pending = s.pending := by
  cases exec_next h with
  | regWrite l v => cases l <;> exact ⟨rfl, rfl⟩
  | _ => exact ⟨rfl, rfl⟩

/-- The step of the CRC_BYTE access of a byte is one `crc_step` and changes nothing else of the block (R112). -/
theorem step_crcByte {b : Byte} {is : List Instr} {rest : List HostEvent}
    (hp : s.pending = accessesOf s.base (.crcByte (b.setWidth 32) :: is) ++ rest) :
    step s = .next { s with
      crcAcc := crcStep s.crcAcc b, pending := accessesOf s.base is ++ rest, response := none } := by
  have hb : (b.setWidth 32).extractLsb' 0 8 = b := by simp [extractLsb'_zero]
  rw [step_accessesOf rfl hp]
  simp only [exec, execCrcByte, hb, accept]

/-- The run of a stream of CRC_BYTE accesses completes with one `crc_step` for each byte, in order (R112, R115). -/
theorem run_crcBytes {s : State} {bs : List Byte} {rest : List HostEvent}
    (hp : s.pending = accessesOf s.base (bs.map (fun b => Instr.crcByte (b.setWidth 32))) ++ rest) :
    ∃ r, Sys2Proof.core.run bs.length s =
      .next { s with crcAcc := bs.foldl crcStep s.crcAcc, pending := rest, response := r } := by
  induction bs generalizing s with
  | nil => exact ⟨s.response, by rw [← show s.pending = rest from hp]; rfl⟩
  | cons b bs ih =>
    rw [List.length_cons, run_of_step bs.length (step_crcByte hp)]
    exact ih rfl

/-- Settles O19: the fold of `crc_step` from 0xFFFF is `crc16`. -/
theorem crcByteStreamComputesCrc16 : Obligations.CrcByteStreamComputesCrc16 := by
  intro s bs rest hs hp
  obtain ⟨r, hr⟩ := run_crcBytes hp
  exact ⟨_, hr, by rw [hs]; rfl⟩

/-- A completed run of well-formed instructions that keep the stream takes the accumulator from `crc16` of some bytes to
`crc16` of those and the bytes fed (R115, R263). -/
theorem run_feeds {s t : State} {bs : List Byte} {is : List Instr} {rest : List HostEvent} (hs : s.crcAcc = crc16 bs)
    (his : ∀ i ∈ is, i.wf = true ∧ keepsCrcStream i = true) (hp : s.pending = accessesOf s.base is ++ rest)
    (h : Sys2Proof.core.run is.length s = .next t) : t.crcAcc = crc16 (bs ++ fedBytes is) ∧ t.pending = rest := by
  induction is generalizing s bs with
  | nil => cases h; exact ⟨by rw [hs, fedBytes, List.append_nil], hp⟩
  | cons i is ih =>
    obtain ⟨⟨hwf, hkeeps⟩, his'⟩ := List.forall_mem_cons.mp his
    obtain ⟨u, hu, hrun⟩ := step_of_run h
    rw [step_accessesOf hwf hp] at hu
    obtain ⟨hbase, hpending⟩ := exec_base_pending hu
    have hcrc := exec_feeds (s := accept _ s) hs (preservesCrcStream_of_keepsCrcStream hkeeps) hu
    rw [fedBytes_cons, ← List.append_assoc]
    exact ih hcrc his' (by rw [hpending, hbase]; rfl) hrun

/-- Settles O20: the accumulator starts as `crc16` of no bytes. -/
theorem crcStreamSurvivesOtherAccesses : Obligations.CrcStreamSurvivesOtherAccesses :=
  fun _ _ _ _ hs his hp h => run_feeds (bs := []) hs his hp h

/-! ### The accesses of the accumulator -/

/-- A command that ends with OK and gives no other field writes the STATUS of R222. -/
theorem report_ok_eq_okStatus (s : State) : s.status.report .ok false false 0#8 0#8 = okStatus s := by
  simp [Status.report, okStatus]

/-- Settles O17: CRC_INIT ends with OK after setting the accumulator. -/
theorem crcInitResult : Obligations.CrcInitResult := by
  intro s
  rw [← report_ok_eq_okStatus]
  rfl

/-- Settles O18: each result is the definition's, and the bits it takes of the value are a remainder. -/
theorem crcAccessResults : Obligations.CrcAccessResults := by
  intro s v
  refine ⟨⟨_, rfl, rfl, ?_⟩, ⟨_, rfl, rfl, ?_⟩, ⟨_, rfl, rfl, ?_⟩⟩
  · have hlow : v.extractLsb' 0 8 = BitVec.ofNat 8 (v.toNat % 256) := BitVec.eq_of_toNat_eq (by simp)
    rw [← hlow]
  · rw [extractLsb'_zero, BitVec.toNat_setWidth]
  · have hlt : s.crcAcc.toNat < 2 ^ 32 := by have := s.crcAcc.isLt; omega
    rw [Option.map_some, BitVec.toNat_setWidth, Nat.mod_eq_of_lt hlt]

end Sys2Proof.Machine
end

section
/-! PROOFS. The encoder family (spec/41_encoder.md): what a BUILD does when its argument check fails and when it passes, the
wire form of the request bodies, and the BUILDs by their kinds. -/

namespace Sys2Proof.Machine

variable {s t : State}

/-! ### A BUILD and its argument check -/

/-- A BUILD whose argument check fails writes only STATUS (R138). -/
theorem exec_buildOf_badArgument {fn : Fn} (ha : ¬ buildArgsOk fn s.count s.value = true) :
    exec (buildOf fn) s = .next { s with status := errorStatus .badArgument false 0#8 } := by
  rw [exec_buildOf, build, if_neg ha, raise_eq .badArgument false 0#8 s (by decide) (by decide)]

/-- A BUILD whose argument check passes and whose request has a body sends that request (R130). -/
theorem exec_buildOf_request {fn : Fn} {body : List Byte} (ha : buildArgsOk fn s.count s.value = true)
    (hb : requestBody fn s = .ok body) : ∃ t, exec (buildOf fn) s = .next t ∧ BuiltRequest body s t := by
  rw [exec_buildOf]
  exact build_ok fn s body ha hb

/-- A BUILD whose argument check passes ends with OK where it completes (R130). -/
theorem result_of_exec_buildOf {fn : Fn} (ha : buildArgsOk fn s.count s.value = true)
    (h : exec (buildOf fn) s = .next t) : t.status.result = .ok := by
  rw [exec_buildOf] at h
  rcases build_cases fn s with ⟨hbad, -⟩ | ⟨j, -, -, -, -, hb⟩ | ⟨body, -, -, -, hb⟩
  · cases ha.symm.trans hbad
  · cases hb.symm.trans h
  · cases hb.symm.trans h
    rfl

/-! ### The bytes before the CRC -/

/-- The short body on the wire: address, function, and two words, each high byte first (R71, R85, R86). -/
theorem shortBody_eq (fn : Fn) (a : Byte) (w1 w2 : Word) :
    shortBody fn a w1 w2 = [a, fn.code] ++ bigEndian w1 ++ bigEndian w2 := by
  rw [shortBody, wireBytes_eq_bigEndian]

/-- The request body of a read function (R131 to R134). -/
theorem requestBody_of_isRead {fn : Fn} (h : isRead fn = true) :
    requestBody fn s = .ok ([s.slaveAddr, fn.code] ++ bigEndian s.startAddr ++ bigEndian s.count) := by
  rw [← shortBody_eq]
  cases fn with
  | rc | rdi | rhr | rir => rfl
  | wsc | wsr | wmr => cases h

/-- The request body of BUILD.WMR when WDATA holds the COUNT words `ws` (R137). -/
theorem requestBody_wmr {ws : List Word} (hl : ws.length = s.count.toNat)
    (hws : ∀ j, j < ws.length → s.wdata.read j = ws[j]?) :
    requestBody .wmr s = .ok ([s.slaveAddr, 0x10#8] ++ bigEndian s.startAddr ++ bigEndian s.count ++
      [BitVec.ofNat 8 (2 * ws.length)] ++ ws.flatMap bigEndian) := by
  have hread : s.wdata.readFrom 0 s.count.toNat = .ok ws :=
    (Memory.readFrom_eq_ok s.wdata s.count.toNat 0 ws).mpr
      ⟨hl, fun k hk => by rw [Nat.zero_add]; exact hws k (hl ▸ hk)⟩
  simp only [requestBody, hread, multipleBody, wireBytes_eq_bigEndian, hl, Fn.code]

/-! ### The BUILDs by their kinds -/

/-- A read BUILD whose argument check is `1 ≤ COUNT ≤ maxq` builds its request in that range, and is BAD_ARGUMENT out of it
(R131 to R134, R139). -/
theorem exec_buildOf_read {fn : Fn} {maxq : Nat} (hread : isRead fn = true)
    (hargs : buildArgsOk fn s.count s.value = true ↔ 1 ≤ s.count.toNat ∧ s.count.toNat ≤ maxq) :
    (1 ≤ s.count.toNat → s.count.toNat ≤ maxq → ∃ t, exec (buildOf fn) s = .next t ∧
      BuiltRequest ([s.slaveAddr, fn.code] ++ bigEndian s.startAddr ++ bigEndian s.count) s t) ∧
    (s.count.toNat < 1 ∨ maxq < s.count.toNat →
      exec (buildOf fn) s = .next { s with status := errorStatus .badArgument false 0#8 }) :=
  ⟨fun h1 hmax => exec_buildOf_request (hargs.mpr ⟨h1, hmax⟩) (requestBody_of_isRead hread),
    fun hout => exec_buildOf_badArgument (mt hargs.mp (by omega))⟩

/-- Settles O22: each row is a read BUILD with its own limit of COUNT. -/
theorem buildReadRequests : Obligations.BuildReadRequests := by
  intro row hrow s
  simp only [List.mem_cons, List.not_mem_nil, or_false] at hrow
  rcases hrow with rfl | rfl | rfl | rfl
  · exact exec_buildOf_read (fn := .rc) rfl (buildArgsOk_iff .rc s.count s.value)
  · exact exec_buildOf_read (fn := .rdi) rfl (buildArgsOk_iff .rdi s.count s.value)
  · exact exec_buildOf_read (fn := .rhr) rfl (buildArgsOk_iff .rhr s.count s.value)
  · exact exec_buildOf_read (fn := .rir) rfl (buildArgsOk_iff .rir s.count s.value)

/-- Settles O23: BUILD.WSC checks its coil value, and BUILD.WSR has nothing to check. -/
theorem buildWriteSingleRequests : Obligations.BuildWriteSingleRequests := by
  intro row hrow s
  simp only [List.mem_cons, List.not_mem_nil, or_false] at hrow
  rcases hrow with rfl | rfl
  · have hargs := buildArgsOk_iff .wsc s.count s.value
    refine ⟨fun hv => exec_buildOf_request (fn := .wsc) (hargs.mpr (hv rfl)) ?_,
      fun _ hon hoff => exec_buildOf_badArgument (fn := .wsc) (mt hargs.mp (not_or.mpr ⟨hon, hoff⟩))⟩
    exact congrArg Except.ok (shortBody_eq .wsc s.slaveAddr s.startAddr s.value)
  · refine ⟨fun _ => exec_buildOf_request (fn := .wsr) rfl ?_, fun h => by cases h⟩
    exact congrArg Except.ok (shortBody_eq .wsr s.slaveAddr s.startAddr s.value)

/-- Settles O24: the argument check decides between the request and BAD_ARGUMENT, and a word without a value is the fault of
`buildWmr_unwritten`. -/
theorem buildWriteMultipleRequest : Obligations.BuildWriteMultipleRequest := by
  intro s
  have hargs := buildArgsOk_iff .wmr s.count s.value
  refine ⟨fun ws hl h1 h123 hws => ?_, fun hout => ?_, fun j => buildWmr_unwritten⟩
  · exact exec_buildOf_request (fn := .wmr) (hargs.mpr (hl ▸ ⟨h1, h123⟩)) (requestBody_wmr hl hws)
  · exact exec_buildOf_badArgument (fn := .wmr) (mt hargs.mp (by dsimp only; omega))

/-- Settles O25: for each function the table's condition is the failure of the argument check, which alone decides. -/
theorem buildBadArgumentExactlyOutOfRange : Obligations.BuildBadArgumentExactlyOutOfRange := by
  intro fn s bad
  have hbad : bad ↔ ¬ buildArgsOk fn s.count s.value = true := by
    rw [buildArgsOk_iff]
    cases fn with
    | rc | rdi | rhr | rir | wmr => dsimp only [bad]; omega
    | wsc => simp [bad, ← BitVec.toNat_inj]
    | wsr => simp [bad]
  exact ⟨fun hb => exec_buildOf_badArgument (hbad.mp hb),
    fun hb t => result_of_exec_buildOf (not_not.mp (mt hbad.mpr hb))⟩

end Sys2Proof.Machine
end

section
/-! PROOFS. The decoder family (spec/42_decoder.md): the ways a PARSE ends and the premise of each, the verdict on a frame,
what a PARSE leaves when it is repeated, and the good responses by their kinds. -/

namespace Sys2Proof.Machine

variable {s t : State}

/-! ### The checks before the frame -/

/-- A PARSE whose arguments are out of range is BAD_ARGUMENT, with CRC_CHK 0 and nothing else changed (R161). -/
theorem parse_badArgument {fn : Fn} (h : 256 < s.rxLen.toNat ∨ ¬ CountInRange fn s.count) :
    parse fn s = .next { s with crcChk := 0#32, status := errorStatus .badArgument false 0#8 } := by
  have hraise := raise_eq .badArgument false 0#8 (withCrcChk 0#32 s) (by decide) (by decide)
  simp only [parse, Config.bufSize]
  by_cases hlen : 256 < s.rxLen.toNat
  · rw [if_pos hlen]
    exact congrArg _ hraise
  · have hcount := not_not.mp (mt (countInRange_iff fn s.count).mpr (h.resolve_left hlen))
    rw [if_neg hlen, if_pos hcount]
    exact congrArg _ hraise

/-- The response is too short to be judged: shorter than any frame, or than the frame length that it gives (R162, R163). -/
def ShortResponse (fn : Fn) (s : State) : Prop :=
  s.rxLen.toNat < 5 ∨ ∃ len, FrameLength fn s.rxBuf len ∧ s.rxLen.toNat < len

/-- A PARSE of a short response is INVALID_RESPONSE, with CRC_CHK 0 and nothing else changed (R162, R163). -/
theorem parse_short {fn : Fn} (h256 : s.rxLen.toNat ≤ 256) (hc : CountInRange fn s.count) (h : ShortResponse fn s) :
    parse fn s = .next { s with crcChk := 0#32, status := errorStatus .invalidResponse false 0#8 } := by
  have hraise := raise_eq .invalidResponse false 0#8 (withCrcChk 0#32 s) (by decide) (by decide)
  simp only [parse, Config.bufSize, Config.minFrame]
  rw [if_neg (Nat.not_lt.mpr h256), if_neg ((countInRange_iff fn s.count).mp hc)]
  by_cases h5 : s.rxLen.toNat < 5
  · rw [if_pos h5]
    exact congrArg _ hraise
  · obtain ⟨len, hfl, hlt⟩ := h.resolve_left h5
    rw [if_neg h5, (responseLength_eq_ok fn s.rxBuf len).mpr hfl]
    dsimp only
    rw [if_pos hlt]
    exact congrArg _ hraise

/-- A PARSE that completes has arguments out of range, a short response, or a received frame that it judges; and each way
has its own next state (R160). -/
theorem parse_next {fn : Fn} (h : parse fn s = .next t) :
    ((256 < s.rxLen.toNat ∨ ¬ CountInRange fn s.count) ∧
      t = { s with crcChk := 0#32, status := errorStatus .badArgument false 0#8 }) ∨
    (s.rxLen.toNat ≤ 256 ∧ CountInRange fn s.count ∧ ShortResponse fn s ∧
      t = { s with crcChk := 0#32, status := errorStatus .invalidResponse false 0#8 }) ∨
    (∃ f, Received fn f s ∧ CountInRange fn s.count ∧ t = judge fn (decide (f.length < s.rxLen.toNat)) f s) := by
  rcases parse_cases fn s with ⟨hbad, -⟩ | ⟨h256, hc, hshort, -⟩ | ⟨i, -, -, -, hp⟩ |
    ⟨f, h256, hc, hlen, hcov, hread, hp⟩
  · cases (parse_badArgument hbad).symm.trans h
    exact .inl ⟨hbad, rfl⟩
  · simp only [responseLength_eq_ok] at hshort
    cases (parse_short h256 hc hshort).symm.trans h
    exact .inr (.inl ⟨h256, hc, hshort, rfl⟩)
  · cases hp.symm.trans h
  · have hbytes : HoldsFrame s.rxBuf f := fun i hi => by
      have hrun := ((Memory.readFrom_eq_ok s.rxBuf f.length 0 f).mp hread).2 i hi
      rwa [Nat.zero_add] at hrun
    cases hp.symm.trans h
    exact .inr (.inr ⟨f, ⟨hbytes, (responseLength_eq_ok fn s.rxBuf _).mp hlen, hcov, h256⟩, hc, rfl⟩)

/-! ### The verdict on a frame -/

/-- The first check that the frame `f` fails, for the address `a` and the quantity `n`, or OK (R160, R225). -/
def verdict (fn : Fn) (a : Byte) (n : Word) (f : List Byte) : ResultCode :=
  if calcCrc f ≠ recvCrc f then .crcMismatch
  else if byteAt f 0 ≠ a then .addressMismatch
  else if 0x80 ≤ (byteAt f 1).toNat then .modbusException
  else if byteAt f 1 ≠ fn.code then .functionMismatch
  else if isRead fn ∧ (byteAt f 2).toNat ≠ byteCountFor fn n then .bytecountMismatch
  else .ok

/-- The EXC that goes with a result: the exception code of the frame, where it is an exception response (R31, R167). -/
def excOf (r : ResultCode) (f : List Byte) : Byte := if r = .modbusException then byteAt f 2 else 0#8

/-- A PARSE of the frame `f` that ends with `r`: CRC_CHK is written, and the outputs on OK, else the error with its EXC. -/
def conclude (fn : Fn) (trail : Bool) (f : List Byte) (s : State) (r : ResultCode) : State :=
  if r = .ok then deliver fn trail f (withCrcChk (crcChkOf (recvCrc f) (calcCrc f)) s)
  else raise r trail (excOf r f) (withCrcChk (crcChkOf (recvCrc f) (calcCrc f)) s)

/-- A frame is judged by its verdict (R160): each branch of the judgement ends as its result says. -/
theorem judge_eq (fn : Fn) (trail : Bool) (f : List Byte) (s : State) :
    judge fn trail f s = conclude fn trail f s (verdict fn s.slaveAddr s.count f) := by
  simp only [judge, verdict, apply_ite (conclude fn trail f s), ← isException_iff, ← expectedByteCount_eq]
  rfl

section Judge
variable (fn : Fn) (trail : Bool) (f : List Byte) (s : State)

@[simp] theorem judge_result : (judge fn trail f s).status.result = verdict fn s.slaveAddr s.count f := by
  rw [judge_eq, conclude]
  split
  · next hok => exact hok.symm
  · rfl

@[simp] theorem judge_trail : (judge fn trail f s).status.trail = trail := by
  rw [judge_eq, conclude]
  split <;> rfl

@[simp] theorem judge_exc : (judge fn trail f s).status.exc = excOf (verdict fn s.slaveAddr s.count f) f := by
  rw [judge_eq, conclude]
  split
  · next hok => rw [hok]; rfl
  · rfl

@[simp] theorem judge_crcChk : (judge fn trail f s).crcChk = crcChkOf (recvCrc f) (calcCrc f) := by
  rw [judge_eq, conclude]
  split <;> rfl

/-- A judgement writes only STATUS, CRC_CHK and RDATA (R179). -/
theorem judge_frame : judge fn trail f s =
    { s with
      status := (judge fn trail f s).status
      crcChk := (judge fn trail f s).crcChk
      rdata := (judge fn trail f s).rdata } := by
  rw [judge_eq, conclude]
  split <;> rfl

@[simp] theorem judge_slaveAddr : (judge fn trail f s).slaveAddr = s.slaveAddr := by rw [judge_frame]
@[simp] theorem judge_count : (judge fn trail f s).count = s.count := by rw [judge_frame]
@[simp] theorem judge_rxLen : (judge fn trail f s).rxLen = s.rxLen := by rw [judge_frame]
@[simp] theorem judge_rxBuf : (judge fn trail f s).rxBuf = s.rxBuf := by rw [judge_frame]
end Judge

/-- No verdict is NONE: that code stands only for a block that has run no command (R28). -/
theorem verdict_ne_none (fn : Fn) (a : Byte) (n : Word) (f : List Byte) : verdict fn a n f ≠ .none := by
  unfold verdict
  split_ifs <;> decide

/-- A judgement that is not OK writes only CRC_CHK and STATUS (R178, R221, R222). -/
theorem judge_of_failed {fn : Fn} {trail : Bool} {f : List Byte} (h : verdict fn s.slaveAddr s.count f ≠ .ok) :
    judge fn trail f s =
      { s with
        crcChk := crcChkOf (recvCrc f) (calcCrc f)
        status := errorStatus (verdict fn s.slaveAddr s.count f) trail (excOf (verdict fn s.slaveAddr s.count f) f) } := by
  rw [judge_eq, conclude, if_neg h, raise_eq _ _ _ _ (verdict_ne_none fn s.slaveAddr s.count f) h]
  rfl

/-- Reporting the same end of a command a second time changes nothing: STICKY is set already (R222). -/
@[simp] theorem report_report (old : Status) (code : ResultCode) (trail coil0 : Bool) (exc rcnt : Byte) :
    (old.report code trail coil0 exc rcnt).report code trail coil0 exc rcnt = old.report code trail coil0 exc rcnt := by
  simp [Status.report]

/-- Judging the same frame a second time changes nothing (R179). -/
theorem judge_judge (fn : Fn) (trail : Bool) (f : List Byte) (s : State) :
    judge fn trail f (judge fn trail f s) = judge fn trail f s := by
  rw [judge_eq fn trail f (judge fn trail f s), judge_slaveAddr, judge_count, judge_eq fn trail f s, conclude, conclude]
  split
  · simp [deliver, finish, withCrcChk]
  · simp [raise, withCrcChk]

/-! ### What a PARSE reports, and what it leaves -/

/-- Settles O26: arguments out of range give BAD_ARGUMENT, and neither a short response nor a verdict is that. -/
theorem parseArgumentErrors : Obligations.ParseArgumentErrors := by
  intro fn s
  rw [exec_parseOf]
  refine ⟨parse_badArgument, fun t h256 hc h => ?_⟩
  rcases parse_next h with ⟨hbad, -⟩ | ⟨-, -, -, rfl⟩ | ⟨f, -, -, rfl⟩
  · exact absurd hbad (not_or.mpr ⟨Nat.not_lt.mpr h256, not_not.mpr hc⟩)
  · exact ResultCode.noConfusion
  · rw [judge_result, verdict]
    split_ifs <;> decide

/-- Settles O27: the premise on the length is that of a short response. -/
theorem parseShortResponses : Obligations.ParseShortResponses := by
  intro fn s h256 hc hshort
  rw [exec_parseOf]
  exact parse_short h256 hc hshort

/-- Settles O28: a received frame is judged, and the fields of the judgement are those of its verdict. -/
theorem parseReportsTheFirstFailingCheck : Obligations.ParseReportsTheFirstFailingCheck := by
  intro fn f s hf hc computed received
  refine ⟨_, (exec_parseOf fn s).trans (parse_received fn f s hf hc), judge_crcChk .., judge_trail .., judge_result ..,
    ?_, fun hne => ?_⟩
  · rw [judge_exc, judge_result, excOf]
  · rw [judge_result] at hne
    rw [judge_result, judge_trail, judge_exc, judge_crcChk]
    exact judge_of_failed hne

/-- Settles O32: each way to complete rests on what a PARSE leaves as it was, so the second PARSE completes the same way. -/
theorem parseFrameAndRepetition : Obligations.ParseFrameAndRepetition := by
  intro fn s t h
  rw [exec_parseOf] at h ⊢
  rcases parse_next h with ⟨hbad, rfl⟩ | ⟨h256, hc, hshort, rfl⟩ | ⟨f, hf, hc, rfl⟩
  · exact ⟨rfl, fun _ => rfl, parse_badArgument hbad⟩
  · exact ⟨rfl, fun _ => rfl, parse_short h256 hc hshort⟩
  · refine ⟨judge_frame .., fun hne => ?_, ?_⟩
    · rw [judge_result] at hne
      rw [judge_of_failed hne]
    · have hf' : Received fn f (judge fn (decide (f.length < s.rxLen.toNat)) f s) := by
        obtain ⟨hbytes, hlen, hcov, h256⟩ := hf
        constructor <;> simpa only [judge_rxBuf, judge_rxLen]
      rw [parse_received fn f _ hf' (by rwa [judge_count]), judge_rxLen, judge_judge]

/-! ### Good responses -/

/-- A frame on the wire is its body and the CRC of the body, low byte first (R71, R117). -/
theorem frameOf_eq (body : List Byte) : frameOf body = body ++ crcTrailer (crc16 body) := by
  rw [frameOf, crcBytes_eq_crcTrailer]

/-- RX_BUF begins with `body` and its CRC, and RX_LEN covers both and stays within RX_BUF (R165). -/
structure HoldsResponse (body : List Byte) (s : State) : Prop where
  frame : HoldsFrame s.rxBuf (frameOf body)
  covered : body.length + 2 ≤ s.rxLen.toNat
  within : s.rxLen.toNat ≤ 256

/-- PARSE(fn) completes on the response with the bytes `body` before its CRC, and delivers the values `ws` (R171 to R178). -/
def ParseDelivers (fn : Fn) (body : List Byte) (ws : List Word) (coil0 : Bool) (s : State) : Prop :=
  ∃ t, exec (parseOf fn) s = .next t ∧
    Delivered ws (decide (body.length + 2 < s.rxLen.toNat)) coil0 (crc16 body) s t

/-- What the outputs of a PARSE leave (R171 to R178). -/
theorem deliver_delivered (fn : Fn) (trail : Bool) (f : List Byte) (c : Word) (s : State) :
    Delivered (decodedWords fn s.count f) trail (coil0Of fn f) c s (deliver fn trail f (withCrcChk (crcChkOf c c) s)) where
  values j hj := Memory.read_fill_of_lt _ j hj
  zeros j hj h256 := Memory.read_fill_of_ge _ j hj h256
  status := by simp [Status.report]
  crcChk := rfl
  rest := rfl

/-- A function code has bit 7 clear (R81, R92). -/
theorem code_lt (fn : Fn) : fn.code.toNat < 0x80 := by cases fn <;> decide

/-- A frame with its own CRC, from the address asked and of the function asked, is OK where a read has the byte count
expected (R165 to R169). -/
theorem verdict_of_frame {fn : Fn} {a : Byte} {n : Word} {rest : List Byte}
    (hcnt : isRead fn = true → (byteAt (frameOf (a :: fn.code :: rest)) 2).toNat = byteCountFor fn n) :
    verdict fn a n (frameOf (a :: fn.code :: rest)) = .ok := by
  have hcrc : calcCrc (frameOf (a :: fn.code :: rest)) = recvCrc (frameOf (a :: fn.code :: rest)) := by
    rw [frameOf_eq, (crc_of_frame _).1, (crc_of_frame _).2]
  have h0 : byteAt (frameOf (a :: fn.code :: rest)) 0 = a := rfl
  have h1 : byteAt (frameOf (a :: fn.code :: rest)) 1 = fn.code := rfl
  rw [verdict, if_neg (not_not.mpr hcrc), if_neg (not_not.mpr h0), h1, if_neg (Nat.not_le.mpr (code_lt fn)),
    if_neg (not_not.mpr rfl), if_neg (fun h => h.2 (hcnt h.1))]

/-- A response of the frame length expected, and whose verdict is OK, is delivered. -/
theorem parseDelivers_of_verdict {fn : Fn} {body : List Byte} (hc : CountInRange fn s.count) (h : HoldsResponse body s)
    (hlen : FrameLength fn s.rxBuf (body.length + 2)) (hv : verdict fn s.slaveAddr s.count (frameOf body) = .ok) :
    ParseDelivers fn body (decodedWords fn s.count (frameOf body)) (coil0Of fn (frameOf body)) s := by
  have hcrc := crc_of_frame body
  have hf : Received fn (frameOf body) s := by
    refine ⟨h.frame, ?_, ?_, h.within⟩ <;> rw [frameOf_length]
    exacts [hlen, h.covered]
  rw [← frameOf_eq] at hcrc
  refine ⟨_, (exec_parseOf fn s).trans (parse_received fn _ s hf hc), ?_⟩
  rw [judge_eq, conclude, if_pos hv, hcrc.1, hcrc.2, frameOf_length]
  exact deliver_delivered ..

/-- The bytes before the CRC of a response that carries a byte count: address, function, byte count, data (R88, R89). -/
def readResponse (a : Byte) (fn : Fn) (data : List Byte) : List Byte :=
  a :: fn.code :: BitVec.ofNat 8 data.length :: data

/-- The data bytes of a read response stand from byte 3 on (R88, R89). -/
theorem data_of_readResponse (a : Byte) (fn : Fn) (data : List Byte) :
    ((frameOf (readResponse a fn data)).drop 3).take data.length = data := by
  simp [frameOf, readResponse]

/-- A read response with as many data bytes as expected is delivered. -/
theorem parseDelivers_read {fn : Fn} {data : List Byte} (hread : isRead fn = true) (hc : CountInRange fn s.count)
    (hdata : data.length = byteCountFor fn s.count) (h : HoldsResponse (readResponse s.slaveAddr fn data) s) :
    ParseDelivers fn (readResponse s.slaveAddr fn data)
      (decodedWords fn s.count (frameOf (readResponse s.slaveAddr fn data)))
      (coil0Of fn (frameOf (readResponse s.slaveAddr fn data))) s := by
  have hle := expectedByteCount_le fn s.count hc
  rw [expectedByteCount_eq, ← hdata] at hle
  have hcnt : (BitVec.ofNat 8 data.length).toNat = data.length := by rw [BitVec.toNat_ofNat]; omega
  have h2 : 2 < (frameOf (readResponse s.slaveAddr fn data)).length := by simp [readResponse]
  refine parseDelivers_of_verdict hc h ?_ (verdict_of_frame fun _ => hcnt.trans hdata)
  refine ⟨fn.code, h.frame 1 (by omega), .inr (.inr ⟨code_lt fn, hread, _, h.frame 2 h2, ?_⟩)⟩
  rw [hcnt]
  simp only [readResponse, List.length_cons]
  omega

/-- A register-read response of COUNT words delivers the words (R173, R174). -/
theorem parseDelivers_words {fn : Fn} (hfn : fn = .rhr ∨ fn = .rir) {ws : List Word} (hlen : ws.length = s.count.toNat)
    (h1 : 1 ≤ ws.length) (h125 : ws.length ≤ 125)
    (h : HoldsResponse (readResponse s.slaveAddr fn (ws.flatMap wireBytes)) s) :
    ParseDelivers fn (readResponse s.slaveAddr fn (ws.flatMap wireBytes)) ws false s := by
  have hread : isRead fn = true := by rcases hfn with rfl | rfl <;> rfl
  have hc : CountInRange fn s.count := by
    rw [hlen] at h1 h125
    rcases hfn with rfl | rfl <;> exact ⟨h1, h125⟩
  have hbytes : byteCountFor fn s.count = 2 * s.count.toNat := by rcases hfn with rfl | rfl <;> rfl
  have hdec : ∀ f, decodedWords fn s.count f = wordsOf ((f.drop 3).take (2 * s.count.toNat)) := fun f => by
    rcases hfn with rfl | rfl <;> rfl
  have hcoil : ∀ f, coil0Of fn f = false := fun f => by rcases hfn with rfl | rfl <;> rfl
  have hdata : (ws.flatMap wireBytes).length = 2 * s.count.toNat := by rw [flatMap_wireBytes_length, hlen]
  have hd := parseDelivers_read hread hc (hdata.trans hbytes.symm) h
  rwa [hdec, hcoil, ← hdata, data_of_readResponse, wordsOf_flatMap] at hd

/-- Settles O29: each row is a register read, whose data bytes are the words, each high byte first. -/
theorem parseRegisterResponses : Obligations.ParseRegisterResponses := by
  intro row hrow s ws hlen h1 h125 body hframe hcov h256
  obtain ⟨fn, hfn, rfl⟩ : ∃ fn : Fn, (fn = .rhr ∨ fn = .rir) ∧ row = (parseOf fn, fn.code) := by
    simp only [List.mem_cons, List.not_mem_nil, or_false] at hrow
    rcases hrow with rfl | rfl
    exacts [⟨.rhr, .inl rfl, rfl⟩, ⟨.rir, .inr rfl, rfl⟩]
  have hbody : body = readResponse s.slaveAddr fn (ws.flatMap wireBytes) := by
    rw [readResponse, flatMap_wireBytes_length, wireBytes_eq_bigEndian]
    rfl
  clear_value body
  subst hbody
  exact parseDelivers_words hfn hlen h1 h125 ⟨frameOf_eq _ ▸ hframe, hcov, h256⟩

/-- A coil or discrete-input response of ceil(COUNT / 8) data bytes delivers the bytes, and COIL0 is bit 0 of the first
(R171, R172). -/
theorem parseDelivers_bits {fn : Fn} (hfn : fn = .rc ∨ fn = .rdi) {b : Byte} {bs : List Byte} (h1 : 1 ≤ s.count.toNat)
    (h2000 : s.count.toNat ≤ 2000) (hlo : 8 * bs.length < s.count.toNat) (hhi : s.count.toNat ≤ 8 * (bs.length + 1))
    (h : HoldsResponse (readResponse s.slaveAddr fn (b :: bs)) s) :
    ParseDelivers fn (readResponse s.slaveAddr fn (b :: bs)) ((b :: bs).map (fun x => BitVec.ofNat 16 x.toNat))
      (decide (b.toNat % 2 = 1)) s := by
  have hread : isRead fn = true := by rcases hfn with rfl | rfl <;> rfl
  have hc : CountInRange fn s.count := by rcases hfn with rfl | rfl <;> exact ⟨h1, h2000⟩
  have hbytes : expectedByteCount fn s.count = (b :: bs).length := by
    have hceil : (s.count.toNat + 7) / 8 = (b :: bs).length := by rw [List.length_cons]; omega
    rcases hfn with rfl | rfl <;> exact hceil
  have hdec : ∀ f, decodedWords fn s.count f =
      ((f.drop 3).take (expectedByteCount fn s.count)).map (fun x => x.setWidth 16) := fun f => by
    rcases hfn with rfl | rfl <;> rfl
  have hcoil : coil0Of fn (frameOf (readResponse s.slaveAddr fn (b :: bs))) = b.getLsbD 0 := by
    rcases hfn with rfl | rfl <;> rfl
  have hbit : b.getLsbD 0 = decide (b.toNat % 2 = 1) := Nat.testBit_zero ..
  have hd := parseDelivers_read hread hc (hbytes.symm.trans (expectedByteCount_eq fn s.count)) h
  rw [hdec, hcoil, hbytes, data_of_readResponse, hbit] at hd
  simpa only [BitVec.ofNat_toNat] using hd

/-- Settles O30: each row is a coil or input read, whose byte count is COUNT in eights, rounded up. -/
theorem parseBitResponses : Obligations.ParseBitResponses := by
  intro row hrow s b bs h1 h2000 hlo hhi body hframe hcov h256
  obtain ⟨fn, hfn, rfl⟩ : ∃ fn : Fn, (fn = .rc ∨ fn = .rdi) ∧ row = (parseOf fn, fn.code) := by
    simp only [List.mem_cons, List.not_mem_nil, or_false] at hrow
    rcases hrow with rfl | rfl
    exacts [⟨.rc, .inl rfl, rfl⟩, ⟨.rdi, .inr rfl, rfl⟩]
  exact parseDelivers_bits hfn h1 h2000 hlo hhi ⟨frameOf_eq _ ▸ hframe, hcov, h256⟩

/-- An 8-byte write response delivers the two words that it echoes, whatever COUNT holds (R175 to R177). -/
theorem parseDelivers_echo {fn : Fn} (hwrite : isRead fn = false) {w1 w2 : Word}
    (h : HoldsResponse (shortBody fn s.slaveAddr w1 w2) s) :
    ParseDelivers fn (shortBody fn s.slaveAddr w1 w2) [w1, w2] false s := by
  have hc : CountInRange fn s.count := (countInRange_iff fn s.count).mpr (by simp [hwrite])
  have hlen : FrameLength fn s.rxBuf 8 := ⟨fn.code, h.frame 1 (by simp), .inr (.inl ⟨code_lt fn, hwrite, rfl⟩)⟩
  have hv : verdict fn s.slaveAddr s.count (frameOf (shortBody fn s.slaveAddr w1 w2)) = .ok :=
    verdict_of_frame (fun hread => absurd hread (by simp [hwrite]))
  obtain ⟨hdec, hcoil⟩ :
      decodedWords fn s.count (frameOf (shortBody fn s.slaveAddr w1 w2)) = wordsOf ([w1, w2].flatMap wireBytes) ∧
        coil0Of fn (frameOf (shortBody fn s.slaveAddr w1 w2)) = false := by
    cases fn with
    | wsc | wsr | wmr => exact ⟨rfl, rfl⟩
    | rc | rdi | rhr | rir => cases hwrite
  have hd := parseDelivers_of_verdict hc h hlen hv
  rwa [hdec, hcoil, wordsOf_flatMap] at hd

/-- Settles O31: each row is a write, whose response echoes two words. -/
theorem parseWriteResponses : Obligations.ParseWriteResponses := by
  intro row hrow s w1 w2 body hframe h8 h256
  obtain ⟨fn, hfn, rfl⟩ : ∃ fn : Fn, isRead fn = false ∧ row = (parseOf fn, fn.code) := by
    simp only [List.mem_cons, List.not_mem_nil, or_false] at hrow
    rcases hrow with rfl | rfl | rfl
    exacts [⟨.wsc, rfl, rfl⟩, ⟨.wsr, rfl, rfl⟩, ⟨.wmr, rfl, rfl⟩]
  have hbody : body = shortBody fn s.slaveAddr w1 w2 := (shortBody_eq fn s.slaveAddr w1 w2).symm
  clear_value body
  subst hbody
  exact parseDelivers_echo hfn ⟨frameOf_eq _ ▸ hframe, h8, h256⟩

end Sys2Proof.Machine
end

section
/-! PROOFS. The control family (spec/43_control.md): a CMD write that is no command, LOOPBACK and the round trip of a
write-single request through it, and the plain register accesses. -/

namespace Sys2Proof.Machine

variable {s t : State}

/-! ### A CMD write that is no command -/

/-- A write to CMD of a word that decodes to no command is rejected as an illegal command (R82, R206). -/
theorem decode_illegalCommand (base : Nat) {v : BusWord} (h : decodeCmd v = none) :
    decode base (busWrite base 0x008 v) = .error (.illegalCommand v) := by
  rw [decode_busWrite base 0x008 v (by decide) (by decide), show locAt 0x008 = .cmd by decide]
  simp only [decodeWrite, h]

/-- Settles O7: a word outside the list decodes to no command, and the answer to it raises BAD_COMMAND. -/
theorem illegalCommandWordRaisesBadCommand : Obligations.IllegalCommandWordRaisesBadCommand := by
  intro s v rest hp hv
  have hnone : decodeCmd v = none :=
    Option.eq_none_iff_forall_not_mem.mpr fun i hi => hv i (mem_commandWords_of_decodeCmd hi)
  rw [step_access s _ rest hp, decode_illegalCommand s.base hnone]
  exact congrArg Host.Outcome.next (raise_eq .badCommand false 0#8 (accept rest s) (by decide) (by decide))

/-! ### LOOPBACK -/

/-- LOOPBACK where the TX_BUF entries below TX_LEN hold the bytes `bs` (R200). -/
theorem exec_loopback_of_holdsFrame {bs : List Byte} (hl : bs.length = s.txLen.toNat) (hbs : HoldsFrame s.txBuf bs) :
    exec .loopback s =
      .next { s with rxBuf := s.rxBuf.writeFrom 0 bs, rxLen := s.txLen, status := okStatus s } := by
  have hread : s.txBuf.readFrom 0 s.txLen.toNat = .ok bs :=
    (Memory.readFrom_eq_ok ..).mpr ⟨hl, fun k hk => by rw [Nat.zero_add]; exact hbs k (hl ▸ hk)⟩
  simp only [exec, execLoopback, hread, finish, report_ok_eq_okStatus]

/-- A buffer holds the bytes just written to it from entry 0 on. -/
theorem holdsFrame_writeFrom (m : Memory 8) (bs : List Byte) : HoldsFrame (m.writeFrom 0 bs) bs := by
  intro i hi
  rw [Memory.read_writeFrom, if_pos ⟨Nat.zero_le i, by omega⟩, Nat.sub_zero]

/-- Settles O34: the copied entries are a run of writes from entry 0 on. -/
theorem loopbackCopiesTheRequest : Obligations.LoopbackCopiesTheRequest := by
  intro s bs hl hbs
  refine ⟨_, exec_loopback_of_holdsFrame hl hbs, holdsFrame_writeFrom s.rxBuf bs, fun i hi => ?_, rfl, rfl, rfl⟩
  rw [Memory.read_writeFrom, if_neg (by omega)]

/-! ### The round trip of a write-single request -/

/-- A run over the accesses of instructions takes the first, where it completes, and goes on with the others (R66). -/
theorem run_accessesOf_cons {i : Instr} {is : List Instr} {rest : List HostEvent} (n : Nat) (hwf : i.wf = true)
    (hp : s.pending = accessesOf s.base (i :: is) ++ rest)
    (h : exec i (accept (accessesOf s.base is ++ rest) s) = .next t) :
    Sys2Proof.core.run (n + 1) s = Sys2Proof.core.run n t ∧ t.pending = accessesOf t.base is ++ rest := by
  obtain ⟨hbase, hpending⟩ := exec_base_pending h
  refine ⟨run_of_step n ((step_accessesOf hwf hp).trans h), ?_⟩
  rw [hpending, hbase]
  rfl

/-- LOOPBACK right after a BUILD makes the request the response in RX_BUF, which ends where RX_LEN says (R200). -/
theorem exec_loopback_of_built {body : List Byte} (es : List HostEvent) (hb : BuiltRequest body s t)
    (h256 : body.length + 2 ≤ 256) :
    ∃ u, exec .loopback (accept es t) = .next u ∧ HoldsResponse body u ∧ u.slaveAddr = s.slaveAddr ∧
      u.rxLen.toNat = body.length + 2 ∧ u.status = okStatus s := by
  have hframe : HoldsFrame (accept es t).txBuf (frameOf body) := frameOf_eq body ▸ hb.frame
  have hlen : (frameOf body).length = (accept es t).txLen.toNat := (frameOf_length body).trans hb.txLen.symm
  refine ⟨_, exec_loopback_of_holdsFrame hlen hframe, ⟨holdsFrame_writeFrom t.rxBuf _, hb.txLen.ge, ?_⟩, ?_, hb.txLen, ?_⟩
  · exact hb.txLen.trans_le h256
  · rw [hb.rest]
    rfl
  · simp only [okStatus, accept_status, hb.status]

/-- What a write request of two words leaves when it is built, looped back and parsed: the STATUS of a delivered echo, and
the two words in RDATA (R175, R176, R200). -/
theorem run_roundTrip {fn : Fn} {w1 w2 : Word} {rest : List HostEvent} (hwrite : isRead fn = false)
    (hargs : buildArgsOk fn s.count s.value = true)
    (hbody : ∀ es, requestBody fn (accept es s) = .ok (shortBody fn s.slaveAddr w1 w2))
    (hp : s.pending = accessesOf s.base [buildOf fn, .loopback, parseOf fn] ++ rest) :
    ∃ t, Sys2Proof.core.run 3 s = .next t ∧ t.pending = rest ∧
      t.status = ⟨.ok, false, false, 0#8, 2#8, s.status.sticky⟩ ∧
      t.rdata.read 0 = some w1 ∧ t.rdata.read 1 = some w2 := by
  have hwfBuild : (buildOf fn).wf = true := by cases fn <;> rfl
  have hwfParse : (parseOf fn).wf = true := by cases fn <;> rfl
  obtain ⟨t, hbuild, hbuilt⟩ := exec_buildOf_request (s := accept _ s) hargs (hbody _)
  obtain ⟨hrun1, hp1⟩ := run_accessesOf_cons 2 hwfBuild hp hbuild
  obtain ⟨u, hloop, ⟨hframe, hcov, h256⟩, haddr, hlen, hstatus⟩ := exec_loopback_of_built _ hbuilt (by simp)
  obtain ⟨hrun2, hp2⟩ := run_accessesOf_cons 1 rfl hp1 hloop
  have hresponse : ∀ es, HoldsResponse (shortBody fn (accept es u).slaveAddr w1 w2) (accept es u) := fun es => by
    rw [accept_slaveAddr, haddr]
    exact ⟨hframe, hcov, h256⟩
  obtain ⟨v, hparse, hdelivered⟩ := parseDelivers_echo hwrite (hresponse _)
  obtain ⟨hrun3, hp3⟩ := run_accessesOf_cons 0 hwfParse hp2 hparse
  refine ⟨v, by rw [hrun1, hrun2, hrun3]; rfl, hp3, ?_, hdelivered.values 0 (by simp), hdelivered.values 1 (by simp)⟩
  rw [hdelivered.status, accept_rxLen, hlen, accept_status, hstatus]
  simp [okStatus]

/-- Settles O36: the write-single functions send the two words START_ADDR and VALUE, which their responses echo. -/
theorem writeSingleRoundTrip : Obligations.WriteSingleRoundTrip := by
  intro row hrow s rest hv hp
  simp only [List.mem_cons, List.not_mem_nil, or_false] at hrow
  rcases hrow with rfl | rfl
  · exact run_roundTrip (fn := .wsc) rfl ((buildArgsOk_iff .wsc s.count s.value).mpr (hv rfl)) (fun _ => rfl) hp
  · exact run_roundTrip (fn := .wsr) rfl rfl (fun _ => rfl) hp

/-! ### STATUS_CLEAR and the plain register accesses -/

/-- Bit 31 of a bus word is clear where its value is below 2^31. -/
theorem getLsbD_31 (v : BusWord) : v.getLsbD 31 = !decide (v.toNat < 0x80000000) := by
  rw [← decide_not, decide_eq_decide.mpr not_lt]
  exact (BitVec.msb_eq_getLsbD_last v).symm.trans (BitVec.msb_eq_decide v)

/-- Settles O37: both branches of R203, on bit 31. -/
theorem statusClearResult : Obligations.StatusClearResult := by
  intro s v
  refine ⟨_, rfl, ?_⟩
  rw [getLsbD_31]
  by_cases hlt : v.toNat < 0x80000000
  · simp [hlt]
  · simp [hlt, Status.clearSticky]

/-- Settles O38: each location stores the low bits of the value that its width keeps, or nothing. -/
theorem regWriteResults : Obligations.RegWriteResults := by
  intro s v
  simp only [← extractLsb'_zero]
  refine ⟨rfl, rfl, rfl, rfl, rfl, fun i => ⟨_, rfl, rfl, fun k => ?_⟩, fun j => ⟨_, rfl, rfl, fun k => ?_⟩, fun l hl => ?_⟩
  · exact Memory.read_write s.rxBuf i.val k _
  · exact Memory.read_write s.wdata j.val k _
  · rcases hl with rfl | rfl | rfl | ⟨off, rfl⟩ | ⟨i, rfl⟩ | ⟨j, rfl⟩ <;> rfl

/-- REG_READ at `l` completes, returns the number `n` and changes nothing else (R60, R205). -/
def RegReadReturns (s : State) (l : Loc) (n : Nat) : Prop :=
  ∃ t, exec (.regRead l) s = .next t ∧ t = { s with response := t.response } ∧ t.response.map BitVec.toNat = some n

/-- A location that has a value returns its number (R205). -/
theorem regReadReturns_of_readLoc {l : Loc} {x : BusWord} {n : Nat} (h : readLoc s l = .ok x) (hn : x.toNat = n) :
    RegReadReturns s l n :=
  ⟨_, exec_regRead_ok h, rfl, congrArg some hn⟩

/-- A location whose value is a zero-extended field returns the number of the field (R205). -/
theorem regReadReturns_setWidth {l : Loc} {w : Nat} {x : BitVec w} (h : readLoc s l = .ok (x.setWidth 32)) (hw : w ≤ 32) :
    RegReadReturns s l x.toNat :=
  regReadReturns_of_readLoc h (BitVec.toNat_setWidth_of_le hw)

/-- A buffer entry that has a value reads as that value, zero-extended (R205). -/
theorem readEntry_written {w i : Nat} (b : Buffer) {m : Memory w} {x : BitVec w} (h : m.read i = some x) :
    readEntry b m i = .ok (x.setWidth 32) := by
  simp only [readEntry, h]

/-- Settles O39: each location holds a bus word or a zero-extended field, and a buffer entry the value it was given. -/
theorem regReadResults : Obligations.RegReadResults := by
  intro s
  have word {l : Loc} {x : BusWord} {n : Nat} := regReadReturns_of_readLoc (s := s) (l := l) (x := x) (n := n)
  have field {l : Loc} {w : Nat} {x : BitVec w} := regReadReturns_setWidth (s := s) (l := l) (x := x)
  refine ⟨word rfl rfl, word rfl rfl, word rfl rfl, word rfl rfl, word rfl rfl, field rfl (by decide), field rfl (by decide),
    field rfl (by decide), field rfl (by decide), field rfl (by decide), field rfl (by decide), field rfl (by decide),
    word rfl rfl, fun off => word rfl rfl, fun i b h => ?_, fun i b h => ?_, fun j x h => ?_, fun j x h => ?_⟩
  · exact field (readEntry_written .txBuf h) (by decide)
  · exact field (readEntry_written .rxBuf h) (by decide)
  · exact field (readEntry_written .wdata h) (by decide)
  · exact field (readEntry_written .rdata h) (by decide)

end Sys2Proof.Machine
end

section
/-! PROOFS. The exceptions family (spec/60_exceptions.md): what a command makes of the STATUS it finds, and what a command
that ends with an error leaves. -/

namespace Sys2Proof.Machine

/-! ### The STATUS that a command finds -/

/-- `t`, the end of a command, with the STICKY that the command leaves where it finds the STATUS `st`: set by its own RESULT,
else kept from `st` (R222). -/
def stickyFrom (st : Status) (t : State) : State :=
  { t with status := { t.status with sticky := st.sticky || t.status.result.isError } }

/-- An end with OK takes nothing but STICKY of the STATUS it finds (R222, R228). -/
theorem finish_with_status (trail coil0 : Bool) (rcnt : Byte) (s : State) (st : Status) :
    finish trail coil0 rcnt { s with status := st } = stickyFrom st (finish trail coil0 rcnt s) := rfl

/-- An end with an error takes nothing but STICKY of the STATUS it finds (R222, R228). -/
theorem raise_with_status (code : ResultCode) (trail : Bool) (exc : Byte) (s : State) (st : Status) :
    raise code trail exc { s with status := st } = stickyFrom st (raise code trail exc s) := rfl

/-- Sending a request takes nothing but STICKY of the STATUS it finds (R130). -/
theorem sendFrame_with_status (body : List Byte) (s : State) (st : Status) :
    sendFrame body { s with status := st } = stickyFrom st (sendFrame body s) := rfl

/-- Delivering the outputs of a PARSE takes nothing but STICKY of the STATUS it finds (R178). -/
theorem deliver_with_status (fn : Fn) (trail : Bool) (f : List Byte) (s : State) (st : Status) :
    deliver fn trail f { s with status := st } = stickyFrom st (deliver fn trail f s) := rfl

/-- CRC_INIT takes nothing but STICKY of the STATUS it finds (R111). -/
theorem crcInit_with_status (s : State) (st : Status) :
    execCrcInit { s with status := st } = mapNext (stickyFrom st) (execCrcInit s) :=
  congrArg Host.Outcome.next (finish_with_status false false 0#8 { s with crcAcc := Config.crcInitial } st)

/-- A LOOPBACK takes nothing but STICKY of the STATUS it finds (R200). -/
theorem loopback_with_status (s : State) (st : Status) :
    execLoopback { s with status := st } = mapNext (stickyFrom st) (execLoopback s) := by
  simp only [execLoopback]
  cases s.txBuf.readFrom 0 s.txLen.toNat with
  | error i => rfl
  | ok bs =>
    exact congrArg Host.Outcome.next
      (finish_with_status false false 0#8 { s with rxBuf := s.rxBuf.writeFrom 0 bs, rxLen := s.txLen } st)

/-- A BUILD takes nothing but STICKY of the STATUS it finds (R130, R138). -/
theorem build_with_status (fn : Fn) (s : State) (st : Status) :
    build fn { s with status := st } = mapNext (stickyFrom st) (build fn s) := by
  have hbody : requestBody fn { s with status := st } = requestBody fn s := by cases fn <;> rfl
  simp only [build, hbody]
  cases buildArgsOk fn s.count s.value with
  | false => exact congrArg Host.Outcome.next (raise_with_status .badArgument false 0#8 s st)
  | true =>
    cases requestBody fn s with
    | error j => rfl
    | ok body => exact congrArg Host.Outcome.next (sendFrame_with_status body s st)

/-- A frame is judged alike whatever STATUS the PARSE found, but for STICKY (R160, R222). -/
theorem judge_with_status (fn : Fn) (trail : Bool) (f : List Byte) (s : State) (st : Status) :
    judge fn trail f { s with status := st } = stickyFrom st (judge fn trail f s) := by
  simp only [judge_eq, conclude]
  split
  · exact deliver_with_status fn trail f (withCrcChk _ s) st
  · exact raise_with_status _ trail _ (withCrcChk _ s) st

/-- A PARSE takes nothing but STICKY of the STATUS it finds (R160). -/
theorem parse_with_status (fn : Fn) (s : State) (st : Status) :
    parse fn { s with status := st } = mapNext (stickyFrom st) (parse fn s) := by
  have hraise : ∀ code, Host.Outcome.next (raise code false 0#8 (withCrcChk 0#32 { s with status := st })) =
      mapNext (stickyFrom st) (.next (raise code false 0#8 (withCrcChk 0#32 s))) := fun code =>
    congrArg Host.Outcome.next (raise_with_status code false 0#8 (withCrcChk 0#32 s) st)
  simp only [parse]
  split_ifs
  · exact hraise .badArgument
  · exact hraise .badArgument
  · exact hraise .invalidResponse
  · cases responseLength fn s.rxBuf with
    | error i => rfl
    | ok len =>
      dsimp only
      split_ifs
      · exact hraise .invalidResponse
      · cases s.rxBuf.readFrom 0 len with
        | error i => rfl
        | ok f => exact congrArg Host.Outcome.next (judge_with_status fn _ f (withCrcChk 0#32 s) st)

/-- Settles O46: a command is CRC_INIT, LOOPBACK, a BUILD or a PARSE, and each of them ends by `finish` or `raise`. -/
theorem commandsOverwriteStatus : Obligations.CommandsOverwriteStatus := by
  intro i s st hcmd
  simp only [← isError_eq]
  change _ = mapNext (stickyFrom st) (exec i s)
  rcases instr_split i with ⟨fn, rfl⟩ | ⟨fn, rfl⟩ | rfl | rfl | ⟨v, rfl⟩ | ⟨v, rfl⟩ | rfl | ⟨v, rfl⟩ | ⟨v, rfl⟩ |
    ⟨l, v, rfl⟩ | ⟨l, rfl⟩
  · rw [exec_buildOf, exec_buildOf]; exact build_with_status fn s st
  · rw [exec_parseOf, exec_parseOf]; exact parse_with_status fn s st
  · exact crcInit_with_status s st
  · exact loopback_with_status s st
  all_goals cases hcmd

/-! ### What a failed command leaves -/

/-- Settles O47: the ends with an error are that of a BUILD, which writes STATUS alone, and those of a PARSE, which also
writes CRC_CHK; every other command that completes ends with OK. -/
theorem failedCommandsChangeOnlyStatus : Obligations.FailedCommandsChangeOnlyStatus := by
  intro i s t hcmd h hfailed
  cases exec_next h with
  | buildRefused fn => exact ⟨rfl, fun _ => rfl⟩
  | parseBadArgument fn | parseShort fn | parseFailed fn => exact ⟨rfl, fun hother => absurd rfl (hother fn)⟩
  | crcInit | buildSent | parseDelivered | loopback => exact absurd rfl hfailed
  | _ => cases hcmd

end Sys2Proof.Machine
end

section
/-! PROOFS. The reset and hazards family (spec/70_reset_and_hazards.md): the two resets, and what the report of a PARSE
rests on. -/

namespace Sys2Proof.Machine

variable {s s' t : State}

/-! ### What a PARSE reports -/

/-- A received frame is one for every state with the same RX_BUF and RX_LEN. -/
theorem Received.of_eq {fn : Fn} {f : List Byte} (h : Received fn f s) (hbuf : s'.rxBuf = s.rxBuf)
    (hlen : s'.rxLen = s.rxLen) : Received fn f s' where
  bytes := hbuf ▸ h.bytes
  length := hbuf ▸ h.length
  covered := hlen ▸ h.covered
  within := hlen ▸ h.within

/-- A response is short for every state with the same RX_BUF and RX_LEN. -/
theorem ShortResponse.of_eq {fn : Fn} (h : ShortResponse fn s) (hbuf : s'.rxBuf = s.rxBuf) (hlen : s'.rxLen = s.rxLen) :
    ShortResponse fn s' := by
  rwa [ShortResponse, hbuf, hlen]

/-- `t'` reports what `t` does (R260): the same CRC_CHK, the same STATUS but for STICKY, and on OK the same RDATA. -/
def ReportsAs (t t' : State) : Prop :=
  t'.crcChk = t.crcChk ∧ t'.status = { t.status with sticky := t'.status.sticky } ∧
    (t.status.result = .ok → t'.rdata = t.rdata)

/-- Ending with the same error from the same CRC_CHK reports the same (R222). -/
theorem raise_reportsAs {code : ResultCode} (trail : Bool) (exc : Byte) (hcode : code ≠ .ok) (hchk : s'.crcChk = s.crcChk) :
    ReportsAs (raise code trail exc s) (raise code trail exc s') :=
  ⟨hchk, rfl, fun hok => absurd hok hcode⟩

/-- Delivering the outputs of one frame under the same COUNT and CRC_CHK reports the same (R178). -/
theorem deliver_reportsAs (fn : Fn) (trail : Bool) (f : List Byte) (hchk : s'.crcChk = s.crcChk)
    (hcount : s'.count = s.count) : ReportsAs (deliver fn trail f s) (deliver fn trail f s') := by
  refine ⟨hchk, ?_, fun _ => ?_⟩
  · rw [deliver_status, deliver_status, hcount]
    rfl
  · rw [deliver_rdata, deliver_rdata, hcount]

/-- A judgement of one frame under the same SLAVE_ADDR and COUNT reports the same: its verdict is the same (R160). -/
theorem judge_reportsAs (fn : Fn) (trail : Bool) (f : List Byte) (haddr : s'.slaveAddr = s.slaveAddr)
    (hcount : s'.count = s.count) : ReportsAs (judge fn trail f s) (judge fn trail f s') := by
  simp only [judge_eq, conclude, haddr, hcount]
  split
  · exact deliver_reportsAs fn trail f rfl hcount
  · next hfailed => exact raise_reportsAs trail _ hfailed rfl

/-- Settles O33: the two states complete in the same way, by the same arguments out of range, the same short response or the
same frame, and each way reports the same. -/
theorem parseRestsOnItsOperandsAlone : Obligations.ParseRestsOnItsOperandsAlone := by
  intro fn s s' t hbuf hlen haddr hcount h
  rw [exec_parseOf] at h ⊢
  change ∃ t', parse fn s' = .next t' ∧ ReportsAs t t'
  rcases parse_next h with ⟨hbad, rfl⟩ | ⟨h256, hc, hshort, rfl⟩ | ⟨f, hf, hc, rfl⟩
  · rw [← hlen, ← hcount] at hbad
    exact ⟨_, parse_badArgument hbad, rfl, rfl, nofun⟩
  · rw [← hlen] at h256
    rw [← hcount] at hc
    exact ⟨_, parse_short h256 hc (hshort.of_eq hbuf hlen), rfl, rfl, nofun⟩
  · rw [← hlen]
    rw [← hcount] at hc
    exact ⟨_, parse_received fn f s' (hf.of_eq hbuf hlen) hc, judge_reportsAs fn _ f haddr hcount⟩

/-! ### The resets -/

/-- The STATUS word after a reset is 0 (R27, R250). -/
theorem reset_toWord : Status.reset.toWord = 0#32 := by decide

/-- After power-on every register but ID and CRC_ACC reads 0 (R250). -/
theorem readLoc_resetAt_zero (base : Nat) (pending : List HostEvent) :
    ∀ l ∈ [Loc.ctrl, .cmd, .status, .crcData, .plain .slaveAddr, .plain .startAddr, .plain .count, .plain .value,
      .plain .txLen, .plain .rxLen, .plain .crcChk],
      readLoc { State.resetAt base with pending := pending } l = .ok 0#32 := by
  simp only [List.forall_mem_cons]
  exact ⟨rfl, rfl, congrArg Except.ok reset_toWord, rfl, rfl, rfl, rfl, rfl, rfl, rfl, rfl, by simp⟩

/-- Settles O11: the step leaves the reset state at the same BASE, with the rest of the stream, and its registers and buffers
are read off it. -/
theorem powerOnResetValues : Obligations.PowerOnResetValues := by
  intro s rest hp
  exact ⟨_, step_powerOn s rest hp, rfl, rfl, rfl, rfl, readLoc_resetAt_zero s.base rest, rfl,
    fun _ => ⟨rfl, rfl, rfl, rfl⟩⟩

/-- SOFT_RESET resets where the lowest binary digit of its value is 1, and does nothing where it is 0 (R202). -/
theorem exec_softReset (s : State) (v : BusWord) :
    exec (.softReset v) s = .next (if v.toNat % 2 = 1 then softResetOp s else s) := by
  have hbit : v.getLsbD 0 = decide (v.toNat % 2 = 1) := Nat.testBit_zero ..
  simp only [exec, execSoftReset, hbit, decide_eq_true_eq]

/-- Settles O12: the two branches of R202, and a soft reset is the reset state with the buffers kept. -/
theorem softResetResetsRegistersAndKeepsBuffers : Obligations.SoftResetResetsRegistersAndKeepsBuffers := by
  intro s v
  rw [exec_softReset]
  refine ⟨fun hset => ?_, fun hclear => ?_⟩
  · rw [if_pos hset]
    rfl
  · rw [if_neg (by omega)]

/-- Settles O13: the reset state meets each clause of the invariant, and the alignment of BASE is the premise. -/
theorem resetMeetsTheInvariant : Obligations.ResetMeetsTheInvariant := fun _ hbase => resetAt_inv hbase

end Sys2Proof.Machine
end
